-- ==== Sys2Proof/Word.lean ====
section
/-! DEFINITION. The word types of the core: every value is an unsigned bit vector of a fixed width
(spec 00 R12, R13), and the widths are the parameters of 00 R10. -/

namespace Sys2Proof

/-- `u8`: a register, an immediate or a memory byte (00 R10 `XLEN`, R13). -/
abbrev Byte := BitVec 8

/-- `u16`: an instruction word (00 R10 `ILEN`, 30 R90). -/
abbrev Word := BitVec 16

/-- `u12`: an address field `NNN`; every value names a byte of memory (00 R10 `ALEN`, 30 R96). -/
abbrev Addr := BitVec 12

/-- `u13`: the program counter, and a call-stack entry, which holds a pc unchanged
(00 R10 `PC_BITS`, 10 R39, R45). -/
abbrev PC := BitVec 13

/-- A 4-bit value: an op-class, a sub-opcode (30 R92). -/
abbrev Nibble := BitVec 4

/-- A 4-bit register index; 10 R32: it is always in 0..15 and needs no out-of-range case. -/
abbrev RegIdx := BitVec 4

end Sys2Proof
end

