-- ==== Sys2Proof/Config.lean ====
section
/-! DEFINITION. The implementation parameters of the block with the value this hardware takes
(spec 00 R10). The widths `XLEN`, `ILEN`, `ALEN` and `PC_BITS` are the types of Word.lean, and
`FUEL` is an argument of the host's run (Machine/HostPort.lean), not part of the semantics.
The numbers are the spec's, unaudited against the repository (00 R5, 92 D23; log 17). -/

namespace Sys2Proof

/-- 00 R10 `NREGS`. -/
abbrev Config.nregs : Nat := 16

/-- 00 R10 `FLAG_REG`: the index of the carry flag register. -/
abbrev Config.flagReg : RegIdx := 15

/-- 00 R10 `MEM_SIZE`, in bytes; it is 2 to the power `ALEN`. -/
abbrev Config.memSize : Nat := 4096

/-- 00 R10 `STACK_DEPTH`, in call-stack entries. -/
abbrev Config.stackDepth : Nat := 16

/-- 00 R10 `ENTRY`: the pc the loader supplies; 0x000 where it supplies none (70 R232; log 8). -/
def Config.entry : PC := 0x000

/-- The two values of the parameter `ODD_FETCH` (00 R10, 20 R77, 92 D3; log 2). -/
inductive OddFetch where
  /-- A fetch at an odd pc raises PcMisaligned. -/
  | fault
  /-- The two bytes at pc and pc + 1 are combined whatever the parity. -/
  | fetch
deriving DecidableEq, Repr

/-- 00 R10 `ODD_FETCH`: the value this hardware takes. -/
def Config.oddFetch : OddFetch := .fault

end Sys2Proof
end

