-- ==== Sys2Proof/Syntax.lean ====
section
/-! DEFINITION. The instructions: one constructor per row of spec/opcode_table.json (30 R100), with
the operand fields of its format (30 R94 to R97). -/

namespace Sys2Proof

/-- The 15 instructions (00 R2). Operands have the width of their field, so every value of every
field is a legal operand (30 R97) and no ill-formed instruction can be written. -/
inductive Instr where
  /-- HALT, 0x0000 (41 R140). -/
  | halt
  /-- CLS, 0x00E0 (41 R142). -/
  | cls
  /-- RET, 0x00EE (42 R150). -/
  | ret
  /-- JMP NNN, 0x1NNN (42 R151). -/
  | jmp (nnn : Addr)
  /-- CALL NNN, 0x2NNN (42 R152). -/
  | call (nnn : Addr)
  /-- SE Vx,KK, 0x3XKK (43 R160). -/
  | seImm (x : RegIdx) (kk : Byte)
  /-- SNE Vx,KK, 0x4XKK (43 R161). -/
  | sneImm (x : RegIdx) (kk : Byte)
  /-- SE Vx,Vy, 0x5XY0 (43 R162). -/
  | seReg (x y : RegIdx)
  /-- LD Vx,KK, 0x6XKK (44 R170). -/
  | ldImm (x : RegIdx) (kk : Byte)
  /-- ADD Vx,KK, 0x7XKK (44 R171). -/
  | addImm (x : RegIdx) (kk : Byte)
  /-- LD Vx,Vy, 0x8XY0 (45 R180). -/
  | ldReg (x y : RegIdx)
  /-- OR Vx,Vy, 0x8XY1 (45 R181). -/
  | orReg (x y : RegIdx)
  /-- AND Vx,Vy, 0x8XY2 (45 R182). -/
  | andReg (x y : RegIdx)
  /-- XOR Vx,Vy, 0x8XY3 (45 R183). -/
  | xorReg (x y : RegIdx)
  /-- ADD Vx,Vy, 0x8XY4 (45 R184, R185). -/
  | addReg (x y : RegIdx)
deriving DecidableEq, Repr

end Sys2Proof
end

