-- ==== Sys2Proof/WellFormed.lean ====
section
/-! DEFINITION. What a well-formed instruction and a well-formed load are. -/

namespace Sys2Proof

/-- Every instruction term is well formed: a register index is any 4-bit value (10 R32, 30 R97), `KK`
any 8-bit value (30 R95), `NNN` any 12-bit value, which is not checked for alignment (30 R96), and
the types of the operands are exactly these. -/
def Instr.wf : Instr → Bool
  | .halt => true
  | .cls => true
  | .ret => true
  | .jmp _ => true
  | .call _ => true
  | .seImm _ _ => true
  | .sneImm _ _ => true
  | .seReg _ _ => true
  | .ldImm _ _ => true
  | .addImm _ _ => true
  | .ldReg _ _ => true
  | .orReg _ _ => true
  | .andReg _ _ => true
  | .xorReg _ _ => true
  | .addReg _ _ => true

/-- What the loader may do before the run (70 R236). It has no command for the call stack, `sp` or the
run state (70 R237). -/
inductive LoaderCommand where
  /-- `LoadBytes(offset, bytes)`. -/
  | loadBytes (offset : Nat) (bytes : List Byte)
  /-- `SetReg(i, v)`, `x[15]` included (70 R237). -/
  | setReg (i : RegIdx) (v : Byte)
  /-- `SetEntry(e)`, not validated (70 R232). -/
  | setEntry (e : PC)
deriving DecidableEq, Repr

/-- 70 R236: every byte of a load goes to an address of at most 0xFFF; a load that writes past it is
ill formed (log 15; a load of no bytes writes nowhere, log 24). -/
def LoaderCommand.wf : LoaderCommand → Bool
  | .loadBytes offset bytes => bytes.isEmpty || decide (offset + bytes.length ≤ Config.memSize)
  | .setReg _ _ => true
  | .setEntry _ => true

end Sys2Proof
end

