-- ==== Sys2Proof/Decode.lean ====
section
/-! DEFINITION. The decoder: field extraction (30 R92), dispatch to an instruction (30 R98), decoding of
bytes as the hardware stores them (20 R74); the encoder; the opcode map of 30 R100 as a table of
masks and patterns; and the host's entry `decodeTableWord`. -/

namespace Sys2Proof

/-! ## Bytes and words -/

/-- 20 R74: the byte at the lower address supplies bits 15:8 of the word. -/
def wordOfBytes (hi lo : Byte) : Word := hi ++ lo

/-- Bits 15:8 of a word, the byte stored at the lower address (20 R74). -/
def hiByte (w : Word) : Byte := w.extractLsb' 8 8

/-- Bits 7:0 of a word, the byte stored at the higher address (20 R74). -/
def loByte (w : Word) : Byte := w.extractLsb' 0 8

/-! ## Fields -/

/-- The decoder's record (30 R91): all interpretations of the word, always all computed. -/
structure Fields where
  /-- `C`, the op-class, bits 15:12. -/
  C : Nibble
  /-- `X`, reg_x, bits 11:8. -/
  X : RegIdx
  /-- `Y`, reg_y, bits 7:4. -/
  Y : RegIdx
  /-- `KK`, immediate, bits 7:0. -/
  KK : Byte
  /-- `N`, sub_opcode, bits 3:0. -/
  N : Nibble
  /-- `NNN`, address, bits 11:0. -/
  NNN : Addr
deriving DecidableEq, Repr

/-- 30 R92: field extraction, pure and total (30 R91). -/
def fields (w : Word) : Fields where
  C := w.extractLsb' 12 4
  X := w.extractLsb' 8 4
  Y := w.extractLsb' 4 4
  KK := w.extractLsb' 0 8
  N := w.extractLsb' 0 4
  NNN := w.extractLsb' 0 12

/-! ## Dispatch -/

/-- 30 R101: in class 0x0 only three whole words are instructions (log 9). -/
def dispatchClass0 (w : Word) : Option Instr :=
  if w = 0x0000 then some .halt
  else if w = 0x00E0 then some .cls
  else if w = 0x00EE then some .ret
  else none

/-- 30 R103, R106: in class 0x8 the sub-opcodes 0 to 4 are instructions, 5 to F are not (log 10). -/
def dispatchClass8 (f : Fields) : Option Instr :=
  match f.N.toNat with
  | 0 => some (.ldReg f.X f.Y)
  | 1 => some (.orReg f.X f.Y)
  | 2 => some (.andReg f.X f.Y)
  | 3 => some (.xorReg f.X f.Y)
  | 4 => some (.addReg f.X f.Y)
  | _ => none

/-- 30 R98: class 0x0 matches the whole word, classes 0x5 and 0x8 match by class and `N` (R102,
R103), classes 0x1, 0x2, 0x3, 0x4, 0x6, 0x7 by class alone, and classes 0x9 to 0xF match nothing
(R104). `none`: the word is unhandled (R105). -/
def dispatch (w : Word) : Option Instr :=
  let f := fields w
  match f.C.toNat with
  | 0x0 => dispatchClass0 w
  | 0x1 => some (.jmp f.NNN)
  | 0x2 => some (.call f.NNN)
  | 0x3 => some (.seImm f.X f.KK)
  | 0x4 => some (.sneImm f.X f.KK)
  | 0x5 => if f.N = 0 then some (.seReg f.X f.Y) else none
  | 0x6 => some (.ldImm f.X f.KK)
  | 0x7 => some (.addImm f.X f.KK)
  | 0x8 => dispatchClass8 f
  | _ => none

/-- Why bytes decode to no instruction. -/
inductive DecodeError where
  /-- Fewer than the two bytes of an instruction word are given (30 R90); the fetch never gives fewer. -/
  | truncated
  /-- The word selects no row of the opcode map (30 R105); the literal word is kept for the report. -/
  | unhandledOpcode (w : Word)
deriving DecidableEq, Repr

/-- The instruction a 16-bit word encodes. It depends on the word alone (30 R108). -/
def decodeWord (w : Word) : Except DecodeError Instr :=
  match dispatch w with
  | some i => .ok i
  | none => .error (.unhandledOpcode w)

/-- Decoding of bytes in address order: one instruction is always 2 bytes (30 R90, R109); the bytes
after it are returned. Total: any bytes give an instruction or a named error. -/
def decode : List Byte → Except DecodeError (Instr × List Byte)
  | hi :: lo :: rest =>
    match decodeWord (wordOfBytes hi lo) with
    | .ok i => .ok (i, rest)
    | .error e => .error e
  | _ => .error .truncated

/-! ## The encoder -/

/-- Format `NNN` (30 R94): class and 12-bit address. -/
def encodeNNN (c : Nibble) (nnn : Addr) : Word := c ++ nnn

/-- Format `XKK` (30 R94): class, register and 8-bit immediate. -/
def encodeXKK (c : Nibble) (x : RegIdx) (kk : Byte) : Word := c ++ (x ++ kk : BitVec 12)

/-- Format `XYN` (30 R94): class, two registers and sub-opcode. -/
def encodeXYN (c : Nibble) (x y : RegIdx) (n : Nibble) : Word :=
  c ++ (x ++ (y ++ n : BitVec 8) : BitVec 12)

/-- The word of an instruction, from the patterns of 30 R100. -/
def encode : Instr → Word
  | .halt => 0x0000
  | .cls => 0x00E0
  | .ret => 0x00EE
  | .jmp nnn => encodeNNN 0x1 nnn
  | .call nnn => encodeNNN 0x2 nnn
  | .seImm x kk => encodeXKK 0x3 x kk
  | .sneImm x kk => encodeXKK 0x4 x kk
  | .seReg x y => encodeXYN 0x5 x y 0x0
  | .ldImm x kk => encodeXKK 0x6 x kk
  | .addImm x kk => encodeXKK 0x7 x kk
  | .ldReg x y => encodeXYN 0x8 x y 0x0
  | .orReg x y => encodeXYN 0x8 x y 0x1
  | .andReg x y => encodeXYN 0x8 x y 0x2
  | .xorReg x y => encodeXYN 0x8 x y 0x3
  | .addReg x y => encodeXYN 0x8 x y 0x4

/-- The bytes of an instruction in address order, big-endian (20 R74). -/
def encodeBytes (i : Instr) : List Byte := [hiByte (encode i), loByte (encode i)]

/-! ## The opcode map -/

/-- One row of the opcode map (30 R100): a word selects it when `w &&& mask = pattern`; `build` gives
the row's instruction from the decoded fields. -/
structure OpcodeRow where
  mnemonic : String
  pattern : Word
  mask : Word
  build : Fields → Instr

/-- 30 R100: a word `w` selects a row when `(w & mask) == match`. -/
def OpcodeRow.selects (r : OpcodeRow) (w : Word) : Bool := w &&& r.mask == r.pattern

/-- The table of 30 R100, row by row and in its order, the class-0 rows first (30 R99). The decoder above
dispatches by class as 30 R98 says; that the two agree is a statement of its own. -/
def opcodeMap : List OpcodeRow :=
  [ ⟨"HALT", 0x0000, 0xFFFF, fun _ => .halt⟩,
    ⟨"CLS", 0x00E0, 0xFFFF, fun _ => .cls⟩,
    ⟨"RET", 0x00EE, 0xFFFF, fun _ => .ret⟩,
    ⟨"JMP_NNN", 0x1000, 0xF000, fun f => .jmp f.NNN⟩,
    ⟨"CALL_NNN", 0x2000, 0xF000, fun f => .call f.NNN⟩,
    ⟨"SE_Vx_KK", 0x3000, 0xF000, fun f => .seImm f.X f.KK⟩,
    ⟨"SNE_Vx_KK", 0x4000, 0xF000, fun f => .sneImm f.X f.KK⟩,
    ⟨"SE_Vx_Vy", 0x5000, 0xF00F, fun f => .seReg f.X f.Y⟩,
    ⟨"LD_Vx_KK", 0x6000, 0xF000, fun f => .ldImm f.X f.KK⟩,
    ⟨"ADD_Vx_KK", 0x7000, 0xF000, fun f => .addImm f.X f.KK⟩,
    ⟨"LD_Vx_Vy", 0x8000, 0xF00F, fun f => .ldReg f.X f.Y⟩,
    ⟨"OR_Vx_Vy", 0x8001, 0xF00F, fun f => .orReg f.X f.Y⟩,
    ⟨"AND_Vx_Vy", 0x8002, 0xF00F, fun f => .andReg f.X f.Y⟩,
    ⟨"XOR_Vx_Vy", 0x8003, 0xF00F, fun f => .xorReg f.X f.Y⟩,
    ⟨"ADD_Vx_Vy", 0x8004, 0xF00F, fun f => .addReg f.X f.Y⟩ ]

/-! ## The host's entry -/

/-- The word that `nbits` bits of `w` give: every bit above `nbits` is 0, and an instruction has 16 bits
(30 R90; log 23). -/
def tableWord (nbits w : Nat) : Word := BitVec.ofNat 16 (w % 2 ^ nbits)

/-- The instruction the decoder reads from an instruction whose bits are `w`, laid out as the hardware
stores it (the high byte at the lower address). -/
def decodeTableWord (nbits w : Nat) : Option Instr :=
  match decode [hiByte (tableWord nbits w), loByte (tableWord nbits w)] with
  | .ok (i, _) => some i
  | .error _ => none

end Sys2Proof
end

