-- ==== Sys2Proof/Machine/State.lean ====
section
/-! DEFINITION. The machine state (spec 10 R54), plain data; the reasons a step can stop; reset. -/

namespace Sys2Proof.Machine

/-- The five fatal error kinds of the core (60 R200, R206). -/
inductive FaultKind where
  /-- CALL with a full call stack (60 R201). -/
  | stackOverflow
  /-- RET with an empty call stack (60 R202). -/
  | stackUnderflow
  /-- A word that selects no row of the opcode map (60 R203). -/
  | unhandledOpcode
  /-- A fetch at a pc above 4094 (60 R204). -/
  | pcOutOfRange
  /-- A fetch at an odd pc, with `ODD_FETCH = fault` (60 R205). -/
  | pcMisaligned
deriving DecidableEq, Repr

/-- The fault record (10 R51). -/
structure FaultRecord where
  /-- Which of the five kinds it is. -/
  kind : FaultKind
  /-- The value of `pc` when the fault is raised. -/
  pc : PC
  /-- The instruction word; absent for the two fetch faults, which fetched none. -/
  opcode : Option Word
deriving DecidableEq, Repr

/-- The run state of the executor (10 R50). -/
inductive RunState where
  /-- The loop steps. -/
  | running
  /-- HALT was executed: the run ended with success (41 R140, 60 R213). -/
  | halted
  /-- A fault ended the run; the record says which (60 R207). -/
  | faulted (r : FaultRecord)
deriving DecidableEq, Repr

/-- Memory as (address, byte) pairs in one canonical form: addresses strictly rising and below
`MEM_SIZE`, no byte listed that equals what an unlisted address reads as (`Memory.wf`, Ops.lean). -/
abbrev Memory := List Host.Cell

/-- The whole state of the machine (10 R54). It has one pc, for its one hardware thread, no identifier, and nothing it
shares with another machine: each instance owns its registers, memory and call stack (60 R221, 20 R87). -/
structure State where
  /-- `x[0]` to `x[15]`; entry 15 is also the carry flag (10 R30, R36). -/
  regs : Vector Byte Config.nregs
  /-- The program counter (10 R38, R39). -/
  pc : PC
  /-- The call-stack entries, live ones below `sp` (10 R42). -/
  stack : Vector PC Config.stackDepth
  /-- The stack pointer, the next free slot, in 0..16 (10 R42; log 21). -/
  sp : Fin (Config.stackDepth + 1)
  /-- The memory (10 R53, 20 R70). -/
  mem : Memory
  /-- The run state, with the fault record in `faulted` (10 R50, R51). -/
  runState : RunState
deriving DecidableEq, Repr

/-- The machine as it is created for a run whose entry address is `entry` (70 R231): registers, memory
and call stack zero, the run state `Running` (10 R52). -/
def State.created (entry : PC) : State where
  regs := Vector.replicate Config.nregs 0x00
  pc := entry
  stack := Vector.replicate Config.stackDepth 0
  sp := 0
  mem := []
  runState := .running

/-- The machine right after reset, which is its creation (70 R230), at the entry 0x000 that stands where
the loader supplies none (70 R232). -/
def State.reset : State := State.created Config.entry

/-- Why a step is not taken. The five fatal errors of the core are no value of this type: they are run
states (60 R207), so a step that raises one answers a next state (log 3). -/
inductive Fault where
  /-- Raised by `loopStep` on a machine that is `Halted`, which has no outgoing transition (40 R132). Safe:
  the spec gives such a step no effect. -/
  | runHalted
  /-- Raised by `loopStep` on a machine that is `Faulted`, which has no outgoing transition (40 R132); it
  surfaces the fault record to the caller (10 R64). Safe: the spec gives such a step no effect. -/
  | runFaulted (r : FaultRecord)
deriving DecidableEq, Repr

/-- Why the model gives something no meaning. -/
inductive Refusal where
  /-- An instruction without a meaning yet, by its mnemonic. No arm raises it: all 15 have theirs. Safe. -/
  | notModelled (mnemonic : String)
  /-- Raised by the loader on a load whose bytes pass 0xFFF, which is ill formed (70 R236). Safe: the spec
  says that a model refuses it. No step raises it. -/
  | loadOutsideMemory (offset length : Nat)
deriving DecidableEq, Repr

end Sys2Proof.Machine
end

