-- ==== Sys2Proof/Machine/Ops.lean ====
section
/-! DEFINITION. The named operations over registers, pc, call stack, memory and run state: the state access
primitives of spec 00 R14. Every instruction and the loop go through them. -/

namespace Sys2Proof.Machine

/-! ## Memory -/

/-- What an address that is not listed reads as: the creation value 0x00 (20 R73). -/
def unlistedByte : Byte := 0x00

/-- Reading one byte (00 R14 `MemRead(addr, 1)`). Only addresses below `MEM_SIZE` exist; the fetch guard
keeps every read of a step below it (40 R122; log 22). -/
def Memory.read : Memory → Nat → Byte
  | [], _ => unlistedByte
  | (k, b) :: m, a => if k = a then b else Memory.read m a

/-- Writing one byte (00 R14 `MemWrite(addr, 1, v)`), keeping the canonical form. -/
def Memory.write : Memory → Nat → Byte → Memory
  | [], a, b => if b = unlistedByte then [] else [(a, b)]
  | (k, c) :: m, a, b =>
    if a < k then
      if b = unlistedByte then (k, c) :: m else (a, b) :: (k, c) :: m
    else if a = k then
      if b = unlistedByte then m else (a, b) :: m
    else (k, c) :: Memory.write m a b

/-- Writing bytes at rising addresses (70 R236 `LoadBytes`). -/
def Memory.writeBytes : Memory → Nat → List Byte → Memory
  | m, _, [] => m
  | m, a, b :: bs => Memory.writeBytes (Memory.write m a b) (a + 1) bs

/-- The canonical form from address `lo` on. -/
def Memory.wfFrom : Nat → Memory → Bool
  | _, [] => true
  | lo, (k, b) :: m =>
    decide (lo ≤ k) && decide (k < Config.memSize) && decide (b ≠ unlistedByte) &&
      Memory.wfFrom (k + 1) m

/-- The canonical form: addresses strictly rising and inside memory, no entry equal to what an unlisted
address reads as. Equal memories are then equal data. -/
def Memory.wf (m : Memory) : Bool := Memory.wfFrom 0 m

/-! ## General registers -/

/-- A 4-bit index is an index of the register file (10 R32). -/
theorem regIdx_lt (i : RegIdx) : i.toNat < Config.nregs := i.isLt

/-- `x[i]` (10 R31): index 15 has no special mechanism. -/
def readReg (i : RegIdx) (s : State) : Byte := s.regs[i.toNat]'(regIdx_lt i)

/-- `x[i] <- v` (10 R31). -/
def writeReg (i : RegIdx) (v : Byte) (s : State) : State :=
  { s with regs := s.regs.set i.toNat v (regIdx_lt i) }

/-! ## Program counter -/

/-- `pc <- target`; nothing is checked when the pc is written (42 R154). -/
def setPc (target : PC) (s : State) : State := { s with pc := target }

/-- `pc <- pc + 2`: the advance (40 R125) and a skip's second `+= 2` (43 R163). The register has 13 bits;
for the pc of a fetch, at most 4094, both additions are exact (10 R39, R40; log 4). -/
def addPc2 (s : State) : State := setPc (s.pc + 2) s

/-- A skip instruction's only effect (43 R163). -/
def skipIf (cond : Bool) (s : State) : State := if cond then addPc2 s else s

/-! ## Call stack -/

/-- `stack[k]` (10 R42). -/
def stackEntry (k : Fin Config.stackDepth) (s : State) : PC := s.stack[k]

/-- `Push(v)` (10 R43): `none` when the stack is full, checked before any write; otherwise the entry at `sp`
is written, unchanged (10 R45; log 5), and `sp` goes up by one. -/
def push (v : PC) (s : State) : Option State :=
  if h : s.sp.val < Config.stackDepth then
    some { s with stack := s.stack.set s.sp.val v h, sp := ⟨s.sp.val + 1, Nat.succ_lt_succ h⟩ }
  else none

/-- `Pop()` (10 R44): `none` when the stack is empty, checked before any write; otherwise `sp` goes down by one
and the entry there is returned. The popped entry keeps its value, dead. -/
def pop (s : State) : Option (PC × State) :=
  if h : s.sp.val = 0 then none
  else
    have hlt : s.sp.val - 1 < Config.stackDepth := by have := s.sp.isLt; omega
    some (s.stack[s.sp.val - 1]'hlt, { s with sp := ⟨s.sp.val - 1, Nat.lt_succ_of_lt hlt⟩ })

/-! ## Run state -/

/-- `halt`: the run state becomes `Halted` and nothing else changes (41 R140). -/
def haltRun (s : State) : State := { s with runState := .halted }

/-- TAKING A FAULT, the core's only exception (00 R14 `raise Fault`, 60 R209): the run state becomes `Faulted`
with the record `{kind, pc, opcode}` whose pc is the value at fault time (10 R51; log 6). Nothing else is
written: no handler, no saved pc, no mode (60 R209). The core has no return from a fault (60 R211). -/
def raiseFault (kind : FaultKind) (opcode : Option Word) (s : State) : State :=
  { s with runState := .faulted { kind := kind, pc := s.pc, opcode := opcode } }

end Sys2Proof.Machine
end

