-- ==== Sys2Proof/Machine/Operands.lean ====
section
/-! DEFINITION. The operand forms (spec 30 R95 to R97): a register, an immediate, an absolute target. -/

namespace Sys2Proof.Machine

/-- 30 R97: a register operand `X` or `Y` names `x[X]` or `x[Y]`; every index is legal. -/
def regOperand (i : RegIdx) (s : State) : Byte := readReg i s

/-- 30 R95: the immediate `KK` is used as it stands, unsigned, not extended, scaled or shifted. -/
def immOperand (kk : Byte) : Byte := kk

/-- 30 R96: the address `NNN` is an absolute target, `zext_13(NNN)`; not relative, scaled or checked. -/
def targetOperand (nnn : Addr) : PC := nnn.setWidth 13

end Sys2Proof.Machine
end

