-- ==== Sys2Proof/Machine/Flags.lean ====
section
/-! DEFINITION. Integer arithmetic and the carry flag (spec 45 R184, R186; 10 R36, R37). The core has one flag,
the register `x[15]`, and one instruction that writes it as a flag. -/

namespace Sys2Proof.Machine

/-- The exact sum of two register values, 0..510 (45 R184, 00 R13). -/
def exactSum (a b : Byte) : Nat := a.toNat + b.toNat

/-- The sum modulo 256 (45 R184, 44 R171). -/
def sumByte (a b : Byte) : Byte := BitVec.ofNat 8 (exactSum a b)

/-- The carry out: 1 if the exact sum exceeds 255, otherwise 0 (45 R184). -/
def carryOut (a b : Byte) : Byte := if exactSum a b > 255 then 1 else 0

/-- The carry flag is `x[15]`, written as a register (10 R36). -/
def writeFlag (v : Byte) (s : State) : State := writeReg Config.flagReg v s

end Sys2Proof.Machine
end

