-- ==== Sys2Proof/Machine/ControlFlow.lean ====
section
/-! DEFINITION. Control transfer: RET, JMP, CALL (spec 42). The pc read here is the advanced one (10 R38). The
opcode of a stack fault's record is the instruction's own word, which `encode` gives (30 R93; log 20). -/

namespace Sys2Proof.Machine

/-- RET (42 R150): `pc <- Pop()`; StackUnderflow when `sp = 0`, the pc keeping the advanced value. -/
def execRet (s : State) : Host.Outcome State Fault Refusal :=
  match pop s with
  | some (target, t) => .next (setPc target t)
  | none => .next (raiseFault .stackUnderflow (some (encode .ret)) s)

/-- JMP NNN (42 R151): `pc <- zext_13(NNN)`, not checked (42 R154). -/
def execJmp (nnn : Addr) (s : State) : Host.Outcome State Fault Refusal :=
  .next (setPc (targetOperand nnn) s)

/-- CALL NNN (42 R152): `Push(pc)`, the address after the CALL (42 R153), then `pc <- zext_13(NNN)`;
StackOverflow when `sp = 16`, nothing pushed and the pc keeping the advanced value. -/
def execCall (nnn : Addr) (s : State) : Host.Outcome State Fault Refusal :=
  match push s.pc s with
  | some t => .next (setPc (targetOperand nnn) t)
  | none => .next (raiseFault .stackOverflow (some (encode (.call nnn))) s)

end Sys2Proof.Machine
end

