-- ==== Sys2Proof/Machine/Immediate.lean ====
section
/-! DEFINITION. Register-immediate instructions: LD Vx,KK; ADD Vx,KK (spec 44). -/

namespace Sys2Proof.Machine

/-- LD Vx,KK (44 R170): `x[X] <- KK`. -/
def execLdImm (x : RegIdx) (kk : Byte) (s : State) : Host.Outcome State Fault Refusal :=
  .next (writeReg x (immOperand kk) s)

/-- ADD Vx,KK (44 R171): `x[X] <- (x[X] + KK) mod 256`, no flag effect. -/
def execAddImm (x : RegIdx) (kk : Byte) (s : State) : Host.Outcome State Fault Refusal :=
  .next (writeReg x (sumByte (regOperand x s) (immOperand kk)) s)

end Sys2Proof.Machine
end

