-- ==== Sys2Proof/Machine/RegisterAlu.lean ====
section
/-! DEFINITION. Register-register ALU: LD, OR, AND, XOR, ADD (spec 45). Every operand is read before anything is
written (10 R34; log 13). LD, OR, AND and XOR have no flag effect (45 R188; log 12). -/

namespace Sys2Proof.Machine

/-- LD Vx,Vy (45 R180): `x[X] <- x[Y]`. -/
def execLdReg (x y : RegIdx) (s : State) : Host.Outcome State Fault Refusal :=
  .next (writeReg x (regOperand y s) s)

/-- OR Vx,Vy (45 R181). -/
def execOrReg (x y : RegIdx) (s : State) : Host.Outcome State Fault Refusal :=
  .next (writeReg x (regOperand x s ||| regOperand y s) s)

/-- AND Vx,Vy (45 R182). -/
def execAndReg (x y : RegIdx) (s : State) : Host.Outcome State Fault Refusal :=
  .next (writeReg x (regOperand x s &&& regOperand y s) s)

/-- XOR Vx,Vy (45 R183). -/
def execXorReg (x y : RegIdx) (s : State) : Host.Outcome State Fault Refusal :=
  .next (writeReg x (regOperand x s ^^^ regOperand y s) s)

/-- ADD Vx,Vy (45 R184): `x[X] <- sum mod 256`, then `x[15] <- carry`, on every execution. The flag is written
last, so with `X = 15` it is what remains (45 R185; log 11). -/
def execAddReg (x y : RegIdx) (s : State) : Host.Outcome State Fault Refusal :=
  let a := regOperand x s
  let b := regOperand y s
  .next (writeFlag (carryOut a b) (writeReg x (sumByte a b) s))

end Sys2Proof.Machine
end

