-- ==== Sys2Proof/Machine/Skip.lean ====
section
/-! DEFINITION. Compare-and-skip: SE Vx,KK; SNE Vx,KK; SE Vx,Vy (spec 43). A skip adds 2 to the already advanced
pc and looks at nothing else (43 R163; log 16). -/

namespace Sys2Proof.Machine

/-- SE Vx,KK (43 R160): skip if `x[X] = KK`. -/
def execSeImm (x : RegIdx) (kk : Byte) (s : State) : Host.Outcome State Fault Refusal :=
  .next (skipIf (regOperand x s == immOperand kk) s)

/-- SNE Vx,KK (43 R161): skip if `x[X] != KK`. -/
def execSneImm (x : RegIdx) (kk : Byte) (s : State) : Host.Outcome State Fault Refusal :=
  .next (skipIf (regOperand x s != immOperand kk) s)

/-- SE Vx,Vy (43 R162): skip if `x[X] = x[Y]`. -/
def execSeReg (x y : RegIdx) (s : State) : Host.Outcome State Fault Refusal :=
  .next (skipIf (regOperand x s == regOperand y s) s)

end Sys2Proof.Machine
end

