-- ==== Sys2Proof/Machine/System.lean ====
section
/-! DEFINITION. The system instructions HALT and CLS (spec 41). Each meaning of this folder is the `Execute`
of 40 R121: it acts on the state AFTER the fetch and the advance (log 19). -/

namespace Sys2Proof.Machine

/-- HALT (41 R140): the run state becomes `Halted`; the pc keeps the advanced value (41 R141). -/
def execHalt (s : State) : Host.Outcome State Fault Refusal := .next (haltRun s)

/-- CLS (41 R142): no state is written beyond the advance already done; the screen is not part of the core. -/
def execCls (s : State) : Host.Outcome State Fault Refusal := .next s

end Sys2Proof.Machine
end

