-- ==== Sys2Proof/Machine/Loop.lean ====
section
/-! DEFINITION. The fetch-decode-execute loop: one step, with the parameter `ODD_FETCH` as an argument (spec 40). -/

namespace Sys2Proof.Machine

/-- The value of `ODD_FETCH` with which `step` runs (00 R10). -/
def oddFetchPolicy : OddFetch := Config.oddFetch

/-- The fetch guard (40 R121 phase 0): the range check first (R122; log 1), then, with `ODD_FETCH = fault`, the
alignment check (R123; log 2). -/
def fetchGuard (odd : OddFetch) (pc : PC) : Option FaultKind :=
  if pc.toNat > Config.memSize - 2 then some .pcOutOfRange
  else if odd = .fault ∧ pc.toNat % 2 = 1 then some .pcMisaligned
  else none

/-- The word at an address: the byte there and the byte after it, big-endian (20 R74). -/
def wordAt (m : Memory) (a : Nat) : Word := wordOfBytes (Memory.read m a) (Memory.read m (a + 1))

/-- The fetched word, at pc and pc + 1 (40 R124, 20 R78). -/
def fetchWord (s : State) : Word := wordAt s.mem s.pc.toNat

/-- The advance, unconditional and before the semantics (40 R125). -/
def advance (s : State) : State := addPc2 s

/-- Decode, dispatch and execute of the fetched word, after the advance (40 R121 phases 3 to 7); a word that selects
no row raises UnhandledOpcode (40 R129). -/
def executeFetched (w : Word) (s : State) : Host.Outcome State Fault Refusal :=
  match decodeWord w with
  | .ok i => exec i s
  | .error _ => .next (raiseFault .unhandledOpcode (some w) s)

/-- One step in full (40 R121), taken only while `Running`; a stopped machine takes none (40 R132; log 3). -/
def loopStep (odd : OddFetch) (s : State) : Host.Outcome State Fault Refusal :=
  match s.runState with
  | .halted => .fault .runHalted
  | .faulted r => .fault (.runFaulted r)
  | .running =>
    match fetchGuard odd s.pc with
    | some kind => .next (raiseFault kind none s)
    | none => executeFetched (fetchWord s) (advance s)

/-- Placing the two bytes of a word where the next fetch reads them, big-endian (20 R74). Where the pc names no two
bytes of memory there is no such place and nothing is written (log 23). -/
def placeFetchWord (w : Word) (s : State) : State :=
  if s.pc.toNat + 1 < Config.memSize then
    { s with mem := Memory.writeBytes s.mem s.pc.toNat [hiByte w, loByte w] }
  else s

end Sys2Proof.Machine
end

