-- ==== Sys2Proof/Machine/Step.lean ====
section
/-! DEFINITION. The step of the machine, and the host's way to place one instruction where it is fetched. -/

namespace Sys2Proof.Machine

/-- One step of this hardware (spec 40 R121, 10 R62). -/
def step (s : State) : Host.Outcome State Fault Refusal := loopStep oddFetchPolicy s

/-- `s` with the instruction whose bits are `w` stored where the next step fetches. -/
def State.withFetchWord (s : State) (nbits w : Nat) : State := placeFetchWord (tableWord nbits w) s

end Sys2Proof.Machine
end

