-- ==== Sys2Proof/Machine/Loader.lean ====
section
/-! DEFINITION. The loader port (spec 10 R60, 70 R236, R237): it acts on a machine that has just been created, before
the run, and on nothing else (70 R238; log 15). -/

namespace Sys2Proof.Machine

/-- `LoadBytes(offset, bytes)` (70 R236); a load past 0xFFF is refused as ill formed. -/
def loadBytes (offset : Nat) (bytes : List Byte) (s : State) : Host.Outcome State Fault Refusal :=
  if LoaderCommand.wf (.loadBytes offset bytes) then
    .next { s with mem := Memory.writeBytes s.mem offset bytes }
  else .refused (.loadOutsideMemory offset bytes.length)

/-- One command of the loader. -/
def applyCommand (c : LoaderCommand) (s : State) : Host.Outcome State Fault Refusal :=
  match c with
  | .loadBytes offset bytes => loadBytes offset bytes s
  | .setReg i v => .next (writeReg i v s)
  | .setEntry e => .next (setPc e s)

/-- The loader's commands in order, up to the first that is refused. -/
def applyCommands : List LoaderCommand → State → Host.Outcome State Fault Refusal
  | [], s => .next s
  | c :: cs, s =>
    match applyCommand c s with
    | .next t => applyCommands cs t
    | .fault r => .fault r
    | .refused r => .refused r

/-- The machine at the start of a run (70 R234, 10 R61): created, then loaded. This is how a program comes to run: it
is placed from outside before the first step (log 18). -/
def launch (cs : List LoaderCommand) : Host.Outcome State Fault Refusal := applyCommands cs State.reset

end Sys2Proof.Machine
end

