-- ==== Sys2Proof/Machine/HostPort.lean ====
section
/-! DEFINITION. What the caller can do with a started machine and what it gets (spec 10 R62 to R64, 70 R238): step it,
run it under a step limit, stop it between steps, read its status back; and several machines side by side (20 R87, 60
R221). -/

namespace Sys2Proof.Machine

/-- The numeric code of a fault kind (60 R206; log 7). -/
def faultCode : FaultKind → Nat
  | .stackOverflow => 1
  | .stackUnderflow => 2
  | .unhandledOpcode => 3
  | .pcOutOfRange => 4
  | .pcMisaligned => 5

/-- The status output: 0 while there is no fault, else the code of the fault (60 R206, 10 R64). -/
def statusCode (s : State) : Nat :=
  match s.runState with
  | .running => 0
  | .halted => 0
  | .faulted r => faultCode r.kind

/-- How a run ends (40 R134). -/
inductive RunEnd where
  /-- HALT: the only success. -/
  | halted
  /-- One of the five fatal errors, with its record. -/
  | faulted (r : FaultRecord)
  /-- The caller stopped the run between two steps, or its step limit was used up (60 R214). -/
  | stopped
deriving DecidableEq, Repr

/-- A run under the step limit `fuel` (the parameter `FUEL`, a host limit, 40 R133, 70 R251), with the state it ends in:
that of the last completed step (60 R214). A caller's stop after `n` steps is the limit `n`. From a running machine
a step always answers a next state, so the last case below is never met (log 14). -/
def hostRun (odd : OddFetch) (fuel : Nat) (s : State) : RunEnd × State :=
  match s.runState with
  | .halted => (.halted, s)
  | .faulted r => (.faulted r, s)
  | .running =>
    match fuel with
    | 0 => (.stopped, s)
    | n + 1 =>
      match loopStep odd s with
      | .next t => hostRun odd n t
      | .fault _ => (.stopped, s)
      | .refused _ => (.stopped, s)

/-! ## Separate instances (20 R87, 60 R221)

Each instance is one `State`, with its own registers, memory, call stack and pc (one hardware thread); beside these
states nothing is held in common, and no instance can read which one it is. Which instance the caller steps next is
the caller's (log 28). -/

/-- One turn of instance `k`: the caller steps that machine once, as `hostRun` does under the limit 1, so an instance
that has stopped keeps its state. -/
def instanceTurn {n : Nat} (odd : OddFetch) (k : Fin n) (ms : Vector State n) : Vector State n :=
  ms.set k (hostRun odd 1 ms[k]).2

/-- The turns of a list of instances, one after the other: each step is over before the next begins, "Single-threaded,
synchronous, non-reentrant execution" (60 R221). -/
def runTurns {n : Nat} (odd : OddFetch) : List (Fin n) → Vector State n → Vector State n
  | [], ms => ms
  | k :: ks, ms => runTurns odd ks (instanceTurn odd k ms)

end Sys2Proof.Machine
end

