-- ==== Sys2Proof/Safety.lean ====
section
/-! DEFINITION. The terms in which claims about the machine are stated: what a frame leaves unchanged, what counts as a
safe run, and the invariant of the machine. -/

namespace Sys2Proof.Machine

/-! ## Frames -/

/-- Every general register reads the same in `s` and `t`. -/
def SameRegs (s t : State) : Prop := ∀ r : RegIdx, readReg r t = readReg r s

/-- The call stack, live and dead entries, and `sp` are the same in `s` and `t`. -/
def SameStack (s t : State) : Prop :=
  t.sp = s.sp ∧ ∀ k : Fin Config.stackDepth, stackEntry k t = stackEntry k s

/-- Every byte of memory reads the same in `s` and `t`. -/
def SameMemory (s t : State) : Prop := ∀ a : Nat, Memory.read t.mem a = Memory.read s.mem a

/-! ## The fetch -/

/-- The next step fetches a word: the machine runs and the fetch guard passes (40 R121 to R123). -/
def Fetchable (odd : OddFetch) (s : State) : Prop :=
  s.runState = .running ∧ s.pc.toNat ≤ 4094 ∧ (odd = .fault → s.pc.toNat % 2 = 0)

/-- The op-class of a word as a number (30 R92). -/
def classOf (w : Word) : Nat := w.toNat / 4096

/-! ## Safe runs -/

/-- A machine that no fault has stopped: the core's faults are its only error states (60 R200, R213). -/
def Safe (s : State) : Prop := ∀ r : FaultRecord, s.runState ≠ .faulted r

/-- The state `n` steps after `s`, each answering a next state. -/
def Steps (odd : OddFetch) : Nat → State → State → Prop
  | 0, s, t => t = s
  | n + 1, s, t => ∃ u, loopStep odd s = .next u ∧ Steps odd n u t

/-- A run that no fault ever stops. -/
def SafeRun (odd : OddFetch) (s : State) : Prop := ∀ n t, Steps odd n s t → Safe t

/-! ## The invariant -/

/-- A return address: even, inside 2..4096, with a CALL in the word before it (42 R153, 10 R45). -/
def IsReturnAddress (m : Memory) (a : PC) : Prop :=
  2 ≤ a.toNat ∧ a.toNat ≤ 4096 ∧ a.toNat % 2 = 0 ∧ classOf (wordAt m (a.toNat - 2)) = 2

/-- A pc that the advance left: even, inside 2..4096 (40 R125). -/
def IsAdvanced (pc : PC) : Prop := 2 ≤ pc.toNat ∧ pc.toNat ≤ 4096 ∧ pc.toNat % 2 = 0

/-- What a fault record of a machine in that state says (10 R51, 60 R201 to R205, R208). -/
def RecordFits (s : State) (r : FaultRecord) : Prop :=
  r.pc = s.pc ∧
    match r.kind with
    | .stackOverflow => IsAdvanced s.pc ∧ s.sp.val = 16 ∧
        r.opcode = some (wordAt s.mem (s.pc.toNat - 2)) ∧ classOf (wordAt s.mem (s.pc.toNat - 2)) = 2
    | .stackUnderflow => IsAdvanced s.pc ∧ s.sp.val = 0 ∧
        r.opcode = some 0x00EE ∧ wordAt s.mem (s.pc.toNat - 2) = 0x00EE
    | .unhandledOpcode => IsAdvanced s.pc ∧
        r.opcode = some (wordAt s.mem (s.pc.toNat - 2)) ∧ dispatch (wordAt s.mem (s.pc.toNat - 2)) = none
    | .pcOutOfRange => 4094 < s.pc.toNat ∧ r.opcode = none
    | .pcMisaligned => s.pc.toNat ≤ 4094 ∧ s.pc.toNat % 2 = 1 ∧ r.opcode = none

/-- The invariant of the machine with `ODD_FETCH = fault`. -/
structure State.Inv (s : State) : Prop where
  /-- The memory is in its canonical form. -/
  mem : Memory.wf s.mem = true
  /-- Every call-stack entry, dead ones too, is an even number of at most 4096 (10 R45, 40 R123). -/
  entries : ∀ k : Fin Config.stackDepth,
    (stackEntry k s).toNat ≤ 4096 ∧ (stackEntry k s).toNat % 2 = 0
  /-- Every live entry is the address after a CALL (42 R153). -/
  live : ∀ k : Fin Config.stackDepth, k.val < s.sp.val → IsReturnAddress s.mem (stackEntry k s)
  /-- A halted machine stands right after a HALT (41 R141). -/
  halted : s.runState = .halted → IsAdvanced s.pc ∧ wordAt s.mem (s.pc.toNat - 2) = 0x0000
  /-- A faulted machine's record says what happened. -/
  faulted : ∀ r : FaultRecord, s.runState = .faulted r → RecordFits s r

/-! ## Reading the rules on numbers

The effect of a fetched word on the numbers that registers, pc and call stack hold, read from the pseudocode of spec 42
to 45 word by word, with no instruction type in between: `w` is the word, `v n` the value of `x[n]`, `e n` that of
`stack[n]`. -/

/-- `x[r]` after the word `w` (44 R170, R171; 45 R180 to R185). -/
def regAfterWord (w : Nat) (v : Nat → Nat) (r : Nat) : Nat :=
  let x := w / 256 % 16
  let y := w / 16 % 16
  if w / 4096 = 6 ∧ r = x then w % 256
  else if w / 4096 = 7 ∧ r = x then (v x + w % 256) % 256
  else if w / 4096 = 8 ∧ w % 16 = 4 ∧ r = 15 then (if v x + v y > 255 then 1 else 0)
  else if w / 4096 = 8 ∧ r = x then
    match w % 16 with
    | 0 => v y
    | 1 => v x ||| v y
    | 2 => v x &&& v y
    | 3 => v x ^^^ v y
    | 4 => (v x + v y) % 256
    | _ => v r
  else v r

/-- The pc after the word `w` fetched at `pc` (42 R150 to R152; 43 R160 to R162; 40 R125). -/
def pcAfterWord (w pc sp : Nat) (v e : Nat → Nat) : Nat :=
  let x := w / 256 % 16
  let y := w / 16 % 16
  if w = 0x00EE ∧ 0 < sp then e (sp - 1)
  else if w / 4096 = 1 ∨ (w / 4096 = 2 ∧ sp < 16) then w % 4096
  else if (w / 4096 = 3 ∧ v x = w % 256) ∨ (w / 4096 = 4 ∧ v x ≠ w % 256) ∨
      (w / 4096 = 5 ∧ w % 16 = 0 ∧ v x = v y) then pc + 4
  else pc + 2

/-- `sp` after the word `w` (10 R43, R44). -/
def spAfterWord (w sp : Nat) : Nat :=
  if w = 0x00EE ∧ 0 < sp then sp - 1 else if w / 4096 = 2 ∧ sp < 16 then sp + 1 else sp

/-- `stack[k]` after the word `w` fetched at `pc` (10 R43 to R46). -/
def entryAfterWord (w pc sp : Nat) (e : Nat → Nat) (k : Nat) : Nat :=
  if w / 4096 = 2 ∧ sp < 16 ∧ k = sp then pc + 2 else e k

/-- The number in `x[n]`. -/
def regNumber (s : State) (n : Nat) : Nat := (readReg (BitVec.ofNat 4 n) s).toNat

/-- The number in `stack[n]`; there are only 16 entries. -/
def entryNumber (s : State) (n : Nat) : Nat :=
  if h : n < Config.stackDepth then (stackEntry ⟨n, h⟩ s).toNat else 0

/-! ## Call-stack sequences -/

/-- Pushing a list of values, the first of the list first. -/
def pushAll : List PC → State → Option State
  | [], s => some s
  | v :: vs, s => (push v s).bind (pushAll vs)

/-- Popping `n` values, the last popped value last. -/
def popAll : Nat → State → Option (List PC × State)
  | 0, s => some ([], s)
  | n + 1, s => (pop s).bind fun p => (popAll n p.2).map fun q => (p.1 :: q.1, q.2)

/-- Two machines that differ at most in dead call-stack entries (10 R42). -/
def AgreeButDead (s t : State) : Prop :=
  t.regs = s.regs ∧ t.pc = s.pc ∧ t.sp = s.sp ∧ t.mem = s.mem ∧ t.runState = s.runState ∧
    ∀ k : Fin Config.stackDepth, k.val < s.sp.val → stackEntry k t = stackEntry k s

end Sys2Proof.Machine
end

