-- ==== Sys2Proof/Certificates/Slice0/Obligations.lean ====
section
/-! DEFINITION. The statements for the provers. A statement that rests on one of the spec's own decisions (92, D<n>), on a
sentence the spec marks as its own inference, or on a choice of the model says so in its docstring. -/

open Sys2Proof Sys2Proof.Machine

/-! ## Reset -/

/-- The machine at creation (70 R231, before the loader writes anything), for every entry address; the machine after reset is
the one created at `ENTRY`, 0x000 by the spec's decision D15 (log 8). Two clauses are the model's reading: that a created
machine is already `Running`, where R231 says so once the run starts (log 25, DEDUCED from 10 R52 and R54); and that the
reads cover the numbers of 4096 and above too, which are no addresses (log 22, DESIGN CHOICE; below 4096 it is 20 R73,
log 27). -/
def Obligations.CreationIsZeroRunningAtEntry : Prop :=
  (∀ e : PC,
    (∀ r : RegIdx, readReg r (State.created e) = 0x00) ∧
    (∀ a : Nat, Memory.read (State.created e).mem a = 0x00) ∧
    (State.created e).sp.val = 0 ∧
    (∀ k : Fin Config.stackDepth, stackEntry k (State.created e) = 0) ∧
    (State.created e).runState = .running ∧
    (State.created e).pc = e) ∧
  State.reset = State.created Config.entry

/-! ## Encoding and decoding -/

/-- 40 R124: the fetched word is `(byte0 << 8) | byte1` of the bytes at pc and pc + 1. -/
def Obligations.FetchedWordIsBigEndian : Prop :=
  ∀ s : State,
    (fetchWord s).toNat =
      ((Memory.read s.mem s.pc.toNat).toNat <<< 8) ||| (Memory.read s.mem (s.pc.toNat + 1)).toNat

/-- 30 R92: the six fields are the shifts and masks of the table, for every word. -/
def Obligations.FieldsAreShiftsAndMasks : Prop :=
  ∀ w : Word,
    (fields w).C.toNat = (w.toNat >>> 12) &&& 0xF ∧
    (fields w).X.toNat = (w.toNat >>> 8) &&& 0xF ∧
    (fields w).Y.toNat = (w.toNat >>> 4) &&& 0xF ∧
    (fields w).KK.toNat = w.toNat &&& 0xFF ∧
    (fields w).N.toNat = w.toNat &&& 0xF ∧
    (fields w).NNN.toNat = w.toNat &&& 0xFFF

/-- Words of the decode table of 95 section 2.1, one for each instruction, and three of its unhandled words. -/
def Obligations.DecodeTableVectors : Prop :=
  decodeWord 0x0000 = .ok .halt ∧ decodeWord 0x00E0 = .ok .cls ∧ decodeWord 0x00EE = .ok .ret ∧
  decodeWord 0x1ABC = .ok (.jmp 0xABC) ∧ decodeWord 0x2100 = .ok (.call 0x100) ∧
  decodeWord 0x3A7F = .ok (.seImm 10 0x7F) ∧ decodeWord 0x4005 = .ok (.sneImm 0 0x05) ∧
  decodeWord 0x5130 = .ok (.seReg 1 3) ∧ decodeWord 0x6FFF = .ok (.ldImm 15 0xFF) ∧
  decodeWord 0x7305 = .ok (.addImm 3 0x05) ∧ decodeWord 0x8AB0 = .ok (.ldReg 10 11) ∧
  decodeWord 0x8AB1 = .ok (.orReg 10 11) ∧ decodeWord 0x8AB2 = .ok (.andReg 10 11) ∧
  decodeWord 0x8AB3 = .ok (.xorReg 10 11) ∧ decodeWord 0x8AB4 = .ok (.addReg 10 11) ∧
  decodeWord 0x00E1 = .error (.unhandledOpcode 0x00E1) ∧
  decodeWord 0x5131 = .error (.unhandledOpcode 0x5131) ∧
  decodeWord 0x8AB5 = .error (.unhandledOpcode 0x8AB5)

/-- Every instruction's bytes, whatever follows them, decode to that instruction and leave what follows (30 R90, R93). -/
def Obligations.DecodingAnEncodedInstructionGivesItBack : Prop :=
  ∀ (i : Instr) (rest : List Byte), i.wf = true → decode (encodeBytes i ++ rest) = .ok (i, rest)

/-- A word that decodes is the word of the instruction it decodes to: no bit of a word is a don't-care bit, which is the
spec's own inference in 30 R93. -/
def Obligations.EncodingADecodedWordGivesItBack : Prop :=
  ∀ (w : Word) (i : Instr), decodeWord w = .ok i → encode i = w

/-- 30 R100: a word decodes to an instruction exactly when it selects that instruction's row, `(w & mask) == match`, with
the row's fields as operands; no other word decodes. -/
def Obligations.DecoderIsTheOpcodeMap : Prop :=
  (∀ (w : Word) (i : Instr),
    decodeWord w = .ok i ↔ ∃ r ∈ opcodeMap, w &&& r.mask = r.pattern ∧ i = r.build (fields w)) ∧
  (∀ w : Word, (∃ e, decodeWord w = .error e) ↔ ∀ r ∈ opcodeMap, w &&& r.mask ≠ r.pattern)

/-- No word selects two rows of the opcode map; the spec infers it in 30 R108 from R98 and R100. -/
def Obligations.OpcodeRowsAreDisjoint : Prop :=
  opcodeMap.Pairwise fun r q => ∀ w : Word, ¬ (r.selects w = true ∧ q.selects w = true)

/-- The words that encode no instruction, class by class (30 R101 to R106). Which class-0 and class-5 words they are is
the spec's decision D11 and D10 (log 9). -/
def Obligations.UnhandledWordsByClass : Prop :=
  ∀ w : Word,
    decodeWord w = .error (.unhandledOpcode w) ↔
      (w.toNat / 4096 = 0 ∧ w ≠ 0x0000 ∧ w ≠ 0x00E0 ∧ w ≠ 0x00EE) ∨
      (w.toNat / 4096 = 5 ∧ w.toNat % 16 ≠ 0) ∨
      (w.toNat / 4096 = 8 ∧ 4 < w.toNat % 16) ∨
      9 ≤ w.toNat / 4096

/-! ## One step -/

/-- What a step runs (40 R121): on a running machine whose pc passes the fetch guard, the decoded instruction is executed
on the state whose pc is advanced by 2 and which is otherwise the same. `step` is the loop with `ODD_FETCH = fault` (D3,
log 2); that `exec` takes the advanced state is how the model splits the step (log 19, DESIGN CHOICE). -/
def Obligations.StepRunsTheDecodedInstruction : Prop :=
  (∀ s : State, step s = loopStep .fault s) ∧
  ∀ (odd : OddFetch) (s : State) (i : Instr), Fetchable odd s → decodeWord (fetchWord s) = .ok i →
    loopStep odd s = exec i (advance s) ∧
    (advance s).pc.toNat = s.pc.toNat + 2 ∧ SameRegs s (advance s) ∧ SameStack s (advance s) ∧
    SameMemory s (advance s) ∧ (advance s).runState = .running

/-- The instruction placed where the next step fetches is the one that step runs, and nothing but those two bytes changes. What
`State.withFetchWord` does is the model's choice, not a rule of the spec: it stands for the load of one word at the pc (log
18, DEDUCED) and leaves the pc and the run state as they are (log 23, DESIGN CHOICE). The order of the two bytes is the
one of 20 R74, and the step that runs them that of 40 R121, with `exec` on the advanced state (log 19). -/
def Obligations.PlacedInstructionIsTheOneStepped : Prop :=
  ∀ (s : State) (i : Instr), Fetchable .fault s → Memory.wf s.mem = true →
    step (s.withFetchWord 16 (encode i).toNat) = exec i (advance (s.withFetchWord 16 (encode i).toNat)) ∧
    (s.withFetchWord 16 (encode i).toNat).pc = s.pc ∧
    (s.withFetchWord 16 (encode i).toNat).runState = s.runState ∧
    SameRegs s (s.withFetchWord 16 (encode i).toNat) ∧ SameStack s (s.withFetchWord 16 (encode i).toNat) ∧
    ∀ a : Nat, a ≠ s.pc.toNat → a ≠ s.pc.toNat + 1 →
      Memory.read (s.withFetchWord 16 (encode i).toNat).mem a = Memory.read s.mem a

/-- A fetch at a pc above 4094 faults with the pc unchanged and no opcode, odd or not: the spec's decisions D2 and D4
(log 1, log 2). -/
def Obligations.FetchBeyondMemoryFaults : Prop :=
  ∀ (odd : OddFetch) (s : State), s.runState = .running → 4094 < s.pc.toNat →
    ∃ t, loopStep odd s = .next t ∧
      t.runState = .faulted { kind := .pcOutOfRange, pc := s.pc, opcode := none } ∧
      t.pc = s.pc ∧ SameRegs s t ∧ SameStack s t ∧ SameMemory s t

/-- With `ODD_FETCH = fault` a fetch at an odd pc inside memory faults with the pc unchanged and no opcode; with
`ODD_FETCH = fetch` it does not fault for that. The spec's decision D3 (log 2). -/
def Obligations.OddFetchFaultsUnderThePolicy : Prop :=
  (∀ s : State, s.runState = .running → s.pc.toNat ≤ 4094 → s.pc.toNat % 2 = 1 →
    ∃ t, step s = .next t ∧
      t.runState = .faulted { kind := .pcMisaligned, pc := s.pc, opcode := none } ∧
      t.pc = s.pc ∧ SameRegs s t ∧ SameStack s t ∧ SameMemory s t) ∧
  ∀ (odd : OddFetch) (pc : PC), pc.toNat ≤ 4094 →
    (fetchGuard odd pc = none ↔ odd = .fetch ∨ pc.toNat % 2 = 0)

/-- 40 R129: a fetched word that selects no row faults; the record holds the advanced pc and the literal word, and registers,
call stack and memory are unchanged. -/
def Obligations.UnhandledWordFaultsAfterTheAdvance : Prop :=
  ∀ (odd : OddFetch) (s : State), Fetchable odd s → (∀ r ∈ opcodeMap, r.selects (fetchWord s) = false) →
    ∃ t, loopStep odd s = .next t ∧
      t.runState = .faulted { kind := .unhandledOpcode, pc := t.pc, opcode := some (fetchWord s) } ∧
      t.pc.toNat = s.pc.toNat + 2 ∧ SameRegs s t ∧ SameStack s t ∧ SameMemory s t

/-- 30 R104 and R106: the words of classes 0x9 to 0xF, and those of class 0x8 with `N` in 0x5..0xF, raise UnhandledOpcode, and
no register is changed. -/
def Obligations.UnassignedClassesRaiseUnhandledOpcode : Prop :=
  ∀ (odd : OddFetch) (s : State), Fetchable odd s →
    (9 ≤ (fetchWord s).toNat / 4096 ∨
      ((fetchWord s).toNat / 4096 = 8 ∧ 5 ≤ (fetchWord s).toNat % 16)) →
    ∃ t r, loopStep odd s = .next t ∧ t.runState = .faulted r ∧ r.kind = .unhandledOpcode ∧
      r.opcode = some (fetchWord s) ∧ SameRegs s t

/-- A stopped machine takes no step (40 R132: the spec's decision D18), and the caller gets the reason: that this is the host outcome
`fault`, and its two names, is the model's choice (log 3, DESIGN CHOICE). -/
def Obligations.StoppedMachineTakesNoStep : Prop :=
  (∀ (odd : OddFetch) (s : State), s.runState = .halted → loopStep odd s = .fault .runHalted) ∧
  ∀ (odd : OddFetch) (s : State) (r : FaultRecord), s.runState = .faulted r →
    loopStep odd s = .fault (.runFaulted r)

/-- A running machine always has a next state: no step is refused and none is stuck (40 R121, R131). -/
def Obligations.RunningMachineAlwaysSteps : Prop :=
  ∀ (odd : OddFetch) (s : State), s.runState = .running → ∃ t, loopStep odd s = .next t

/-! ## The instructions: results and frames

`exec` is `Execute(d, f)` of 40 R121, on the state after the fetch and the advance (log 19); so is every pc below. -/

/-- HALT (41 R140): the run state becomes `Halted`, the pc keeps the value it has (the advanced one), and nothing else changes. The
clause on unwritten memory, 0x0000 being the word there (20 R73, log 27, DEDUCED), is for every number: for one of 4095 and
above, where the spec has no word, it is the model's choice (log 22, DESIGN CHOICE). -/
def Obligations.HaltStopsTheRunAndChangesNothingElse : Prop :=
  encode .halt = 0x0000 ∧ (∀ a : Nat, wordAt State.reset.mem a = 0x0000) ∧
  ∀ s : State, ∃ t, exec .halt s = .next t ∧ t.runState = .halted ∧
    t.pc = s.pc ∧ SameRegs s t ∧ SameStack s t ∧ SameMemory s t

/-- 41 R142: CLS writes no state beyond the advance already done. -/
def Obligations.ClsChangesNothing : Prop :=
  encode .cls = 0x00E0 ∧ ∀ s : State, exec .cls s = .next s

/-- RET (42 R150, 10 R44): with a live entry the pc becomes the most recent one and `sp` goes down by one; with none it faults,
the pc keeping its (advanced) value. What the record holds is the spec's decision D7 (log 6); that
its opcode is the word the instruction encodes to is log 20 (DEDUCED). -/
def Obligations.RetPopsOrUnderflows : Prop :=
  encode .ret = 0x00EE ∧
  (∀ (s : State) (k : Fin Config.stackDepth), s.sp.val = k.val + 1 →
    ∃ t, exec .ret s = .next t ∧ t.pc = stackEntry k s ∧ t.sp.val = k.val ∧
      (∀ j, stackEntry j t = stackEntry j s) ∧ SameRegs s t ∧ SameMemory s t ∧ t.runState = s.runState) ∧
  (∀ s : State, s.sp.val = 0 →
    ∃ t, exec .ret s = .next t ∧
      t.runState = .faulted { kind := .stackUnderflow, pc := s.pc, opcode := some 0x00EE } ∧
      t.pc = s.pc ∧ SameRegs s t ∧ SameStack s t ∧ SameMemory s t)

/-- JMP NNN (42 R151): the pc becomes `NNN`, unchecked. -/
def Obligations.JmpSetsThePcToItsAddress : Prop :=
  ∀ (nnn : Addr) (s : State),
    (encode (.jmp nnn)).toNat = 0x1000 + nnn.toNat ∧
    ∃ t, exec (.jmp nnn) s = .next t ∧ t.pc.toNat = nnn.toNat ∧
      SameRegs s t ∧ SameStack s t ∧ SameMemory s t ∧ t.runState = s.runState

/-- CALL NNN (42 R152, 10 R43): with a free slot the pc it sees is pushed there, unchanged, and the pc becomes `NNN`; with none
it faults, nothing is pushed and the pc keeps its (advanced) value. The entry's 13 bits are the spec's decision D6
(log 5), what the record holds is D7 (log 6); that its opcode is the word the instruction encodes to is log 20 (DEDUCED). -/
def Obligations.CallPushesOrOverflows : Prop :=
  ∀ (nnn : Addr) (s : State),
    (encode (.call nnn)).toNat = 0x2000 + nnn.toNat ∧
    (s.sp.val < 16 →
      ∃ t, exec (.call nnn) s = .next t ∧ t.pc.toNat = nnn.toNat ∧ t.sp.val = s.sp.val + 1 ∧
        (∀ k : Fin Config.stackDepth,
          stackEntry k t = if k.val = s.sp.val then s.pc else stackEntry k s) ∧
        SameRegs s t ∧ SameMemory s t ∧ t.runState = s.runState) ∧
    (s.sp.val = 16 →
      ∃ t, exec (.call nnn) s = .next t ∧
        t.runState = .faulted { kind := .stackOverflow, pc := s.pc, opcode := some (encode (.call nnn)) } ∧
        t.pc = s.pc ∧ SameRegs s t ∧ SameStack s t ∧ SameMemory s t)

/-- SE Vx,KK (43 R160). The addition is exact for every pc that the advance leaves, which is at most 4096; that the pc has
13 bits and does not wrap is the spec's decision D5 (log 4). -/
def Obligations.SeImmediateSkipsWhenEqual : Prop :=
  ∀ (x : RegIdx) (kk : Byte) (s : State),
    (encode (.seImm x kk)).toNat = 0x3000 + 256 * x.toNat + kk.toNat ∧
    ∃ t, exec (.seImm x kk) s = .next t ∧
      (readReg x s = kk → s.pc.toNat ≤ 4096 → t.pc.toNat = s.pc.toNat + 2) ∧
      (readReg x s ≠ kk → t.pc = s.pc) ∧
      SameRegs s t ∧ SameStack s t ∧ SameMemory s t ∧ t.runState = s.runState

/-- SNE Vx,KK (43 R161); the exact addition as in SE Vx,KK (D5, log 4). -/
def Obligations.SneImmediateSkipsWhenDifferent : Prop :=
  ∀ (x : RegIdx) (kk : Byte) (s : State),
    (encode (.sneImm x kk)).toNat = 0x4000 + 256 * x.toNat + kk.toNat ∧
    ∃ t, exec (.sneImm x kk) s = .next t ∧
      (readReg x s ≠ kk → s.pc.toNat ≤ 4096 → t.pc.toNat = s.pc.toNat + 2) ∧
      (readReg x s = kk → t.pc = s.pc) ∧
      SameRegs s t ∧ SameStack s t ∧ SameMemory s t ∧ t.runState = s.runState

/-- SE Vx,Vy (43 R162), `N` being 0 in its word; `X = Y` always skips. The exact addition as in SE Vx,KK (D5, log 4). -/
def Obligations.SeRegisterSkipsWhenEqual : Prop :=
  ∀ (x y : RegIdx) (s : State),
    (encode (.seReg x y)).toNat = 0x5000 + 256 * x.toNat + 16 * y.toNat ∧
    ∃ t, exec (.seReg x y) s = .next t ∧
      (readReg x s = readReg y s → s.pc.toNat ≤ 4096 → t.pc.toNat = s.pc.toNat + 2) ∧
      (readReg x s ≠ readReg y s → t.pc = s.pc) ∧
      SameRegs s t ∧ SameStack s t ∧ SameMemory s t ∧ t.runState = s.runState

/-- 43 R163: a skip instruction moves the pc by 2 past the advance or not at all, writes nothing else, and does not look at
the word it may pass over: with any other memory that holds the same instruction at the pc the step does the same. -/
def Obligations.SkipsExamineNothingAndWriteOnlyThePc : Prop :=
  ∀ (odd : OddFetch) (s : State) (i : Instr), Fetchable odd s → decodeWord (fetchWord s) = .ok i →
    ((∃ x kk, i = .seImm x kk) ∨ (∃ x kk, i = .sneImm x kk) ∨ (∃ x y, i = .seReg x y)) →
    ∃ t, loopStep odd s = .next t ∧
      (t.pc.toNat = s.pc.toNat + 2 ∨ t.pc.toNat = s.pc.toNat + 4) ∧
      SameRegs s t ∧ SameStack s t ∧ SameMemory s t ∧ t.runState = .running ∧
      ∀ m : Memory, wordAt m s.pc.toNat = fetchWord s →
        loopStep odd { s with mem := m } = .next { t with mem := m }

/-- 44 R170: LD Vx,KK, `X = 15` included. -/
def Obligations.LdImmediateWritesTheImmediate : Prop :=
  ∀ (x : RegIdx) (kk : Byte) (s : State),
    (encode (.ldImm x kk)).toNat = 0x6000 + 256 * x.toNat + kk.toNat ∧
    ∃ t, exec (.ldImm x kk) s = .next t ∧
      (∀ r : RegIdx, readReg r t = if r = x then kk else readReg r s) ∧
      t.pc = s.pc ∧ SameStack s t ∧ SameMemory s t ∧ t.runState = s.runState

/-- 44 R171: ADD Vx,KK adds modulo 256 and changes no other register, so no flag unless `X = 15`. -/
def Obligations.AddImmediateWrapsWithoutFlag : Prop :=
  ∀ (x : RegIdx) (kk : Byte) (s : State),
    (encode (.addImm x kk)).toNat = 0x7000 + 256 * x.toNat + kk.toNat ∧
    ∃ t, exec (.addImm x kk) s = .next t ∧
      (readReg x t).toNat = ((readReg x s).toNat + kk.toNat) % 256 ∧
      (∀ r : RegIdx, r ≠ x → readReg r t = readReg r s) ∧
      t.pc = s.pc ∧ SameStack s t ∧ SameMemory s t ∧ t.runState = s.runState

/-- 45 R180: LD Vx,Vy; with `X = Y` the state is unchanged. -/
def Obligations.LdRegisterCopies : Prop :=
  ∀ (x y : RegIdx) (s : State),
    (encode (.ldReg x y)).toNat = 0x8000 + 256 * x.toNat + 16 * y.toNat ∧
    (x = y → exec (.ldReg x y) s = .next s) ∧
    ∃ t, exec (.ldReg x y) s = .next t ∧
      (∀ r : RegIdx, readReg r t = if r = x then readReg y s else readReg r s) ∧
      t.pc = s.pc ∧ SameStack s t ∧ SameMemory s t ∧ t.runState = s.runState

/-- OR, AND and XOR (45 R181 to R183), bit by bit. That `x[15]` is unchanged unless it is the destination is the spec's
decision D13 (log 12). -/
def Obligations.LogicInstructionsWriteOneRegister : Prop :=
  ∀ (x y : RegIdx) (s : State),
    (encode (.orReg x y)).toNat = 0x8001 + 256 * x.toNat + 16 * y.toNat ∧
    (encode (.andReg x y)).toNat = 0x8002 + 256 * x.toNat + 16 * y.toNat ∧
    (encode (.xorReg x y)).toNat = 0x8003 + 256 * x.toNat + 16 * y.toNat ∧
    (∃ t, exec (.orReg x y) s = .next t ∧
      (∀ n < 8, (readReg x t).getLsbD n = ((readReg x s).getLsbD n || (readReg y s).getLsbD n)) ∧
      (∀ r : RegIdx, r ≠ x → readReg r t = readReg r s) ∧
      t.pc = s.pc ∧ SameStack s t ∧ SameMemory s t ∧ t.runState = s.runState) ∧
    (∃ t, exec (.andReg x y) s = .next t ∧
      (∀ n < 8, (readReg x t).getLsbD n = ((readReg x s).getLsbD n && (readReg y s).getLsbD n)) ∧
      (∀ r : RegIdx, r ≠ x → readReg r t = readReg r s) ∧
      t.pc = s.pc ∧ SameStack s t ∧ SameMemory s t ∧ t.runState = s.runState) ∧
    (∃ t, exec (.xorReg x y) s = .next t ∧
      (∀ n < 8, (readReg x t).getLsbD n = ((readReg x s).getLsbD n ^^ (readReg y s).getLsbD n)) ∧
      (∀ r : RegIdx, r ≠ x → readReg r t = readReg r s) ∧
      t.pc = s.pc ∧ SameStack s t ∧ SameMemory s t ∧ t.runState = s.runState)

/-- 45 R184: ADD Vx,Vy. `x[X]` becomes the sum modulo 256 and then `x[15]` the carry, 0 or 1, on every execution; the sum is
of the values before any write, for every `X` and `Y`, equal to each other and to 15 too. -/
def Obligations.AddRegistersWritesSumThenCarry : Prop :=
  ∀ (x y : RegIdx) (s : State),
    (encode (.addReg x y)).toNat = 0x8004 + 256 * x.toNat + 16 * y.toNat ∧
    ∃ t, exec (.addReg x y) s = .next t ∧
      (∀ r : RegIdx, (readReg r t).toNat =
        if r = 15 then (if (readReg x s).toNat + (readReg y s).toNat > 255 then 1 else 0)
        else if r = x then ((readReg x s).toNat + (readReg y s).toNat) % 256
        else (readReg r s).toNat) ∧
      t.pc = s.pc ∧ SameStack s t ∧ SameMemory s t ∧ t.runState = s.runState

/-- ADD V15,Vy (45 R185): the flag is written last, so `x[15]` ends holding the carry and no other register changes. The spec's
decision D12 (log 11). -/
def Obligations.AddIntoTheFlagRegisterLeavesTheCarry : Prop :=
  ∀ (y : RegIdx) (s : State),
    ∃ t, exec (.addReg 15 y) s = .next t ∧
      (readReg 15 t = 0 ∨ readReg 15 t = 1) ∧
      (readReg 15 t = 1 ↔ (readReg 15 s).toNat + (readReg y s).toNat > 255) ∧
      (∀ r : RegIdx, r ≠ 15 → readReg r t = readReg r s)

/-! ## Faults -/

/-- Taking a fault writes only the run state and its record, whose pc is the pc at that time; the spec infers in 60 R209 that
nothing else is saved. -/
def Obligations.RaisingAFaultWritesOnlyTheRunState : Prop :=
  ∀ (k : FaultKind) (o : Option Word) (s : State),
    (raiseFault k o s).runState = .faulted { kind := k, pc := s.pc, opcode := o } ∧
    (raiseFault k o s).pc = s.pc ∧ SameRegs s (raiseFault k o s) ∧ SameStack s (raiseFault k o s) ∧
    SameMemory s (raiseFault k o s)

/-- The status code (60 R206): the numbers are the spec's decision D9 (log 7). -/
def Obligations.StatusCodesOfTheFaultKinds : Prop :=
  (∀ s : State, statusCode s = 0 ↔ Safe s) ∧
  ∀ (s : State) (r : FaultRecord), s.runState = .faulted r →
    statusCode s =
      match r.kind with
      | .stackOverflow => 1
      | .stackUnderflow => 2
      | .unhandledOpcode => 3
      | .pcOutOfRange => 4
      | .pcMisaligned => 5

/-- Faults are precise (60 R208, 40 R135): whatever the step that ends in `Faulted`, registers, call stack and memory hold their
values from before it, the record's pc is the pc, and that is the advanced pc except for the two fetch faults, which have no
opcode. The pc and the record are the spec's decisions D7 and D8 (log 6). -/
def Obligations.FaultsArePrecise : Prop :=
  ∀ (odd : OddFetch) (s t : State) (r : FaultRecord), loopStep odd s = .next t → t.runState = .faulted r →
    SameRegs s t ∧ SameStack s t ∧ SameMemory s t ∧ r.pc = t.pc ∧
    (if r.kind = .pcOutOfRange ∨ r.kind = .pcMisaligned then t.pc = s.pc ∧ r.opcode = none
     else t.pc.toNat = s.pc.toNat + 2 ∧ r.opcode = some (fetchWord s))

/-! ## The whole step, word by word -/

/-- The run state after every step of a running machine: which word in which state halts, which faults, with what record, and in
which order the causes are tested (40 R121, 60 R201 to R205, R210). The two fetch faults, their order, and the records are
the spec's decisions D2, D3, D4 and D7 (logs 1, 2 and 6). -/
def Obligations.RunStateAfterEveryStep : Prop :=
  ∀ (odd : OddFetch) (s : State), s.runState = .running →
    ∃ t, loopStep odd s = .next t ∧
      t.runState =
        if 4094 < s.pc.toNat then .faulted { kind := .pcOutOfRange, pc := s.pc, opcode := none }
        else if odd = .fault ∧ s.pc.toNat % 2 = 1 then
          .faulted { kind := .pcMisaligned, pc := s.pc, opcode := none }
        else if opcodeMap.all (fun r => !r.selects (fetchWord s)) then
          .faulted { kind := .unhandledOpcode, pc := s.pc + 2, opcode := some (fetchWord s) }
        else if fetchWord s = 0x0000 then .halted
        else if fetchWord s = 0x00EE ∧ s.sp.val = 0 then
          .faulted { kind := .stackUnderflow, pc := s.pc + 2, opcode := some (fetchWord s) }
        else if (fetchWord s).toNat / 4096 = 2 ∧ s.sp.val = 16 then
          .faulted { kind := .stackOverflow, pc := s.pc + 2, opcode := some (fetchWord s) }
        else .running

/-- Every general register after every step, read from the fetched word alone (44, 45; 10 R33). It covers the decisions D12, D13
and D14 of the spec (logs 11 to 13). -/
def Obligations.RegistersAfterEveryStep : Prop :=
  ∀ (odd : OddFetch) (s : State), Fetchable odd s →
    ∃ t, loopStep odd s = .next t ∧
      ∀ n < 16, regNumber t n = regAfterWord (fetchWord s).toNat (regNumber s) n

/-- The pc after every step, read from the fetched word alone (42, 43; 40 R125). It covers the decisions D5, D6 and D8 of the spec
(logs 4 to 6). -/
def Obligations.PcAfterEveryStep : Prop :=
  ∀ (odd : OddFetch) (s : State), Fetchable odd s →
    ∃ t, loopStep odd s = .next t ∧
      t.pc.toNat =
        pcAfterWord (fetchWord s).toNat s.pc.toNat s.sp.val (regNumber s) (entryNumber s)

/-- `sp` and every call-stack entry after every step, read from the fetched word alone (10 R43 to R46). The width of an entry is the
spec's decision D6 (log 5). -/
def Obligations.CallStackAfterEveryStep : Prop :=
  ∀ (odd : OddFetch) (s : State), Fetchable odd s →
    ∃ t, loopStep odd s = .next t ∧
      t.sp.val = spAfterWord (fetchWord s).toNat s.sp.val ∧
      ∀ k < 16, entryNumber t k =
        entryAfterWord (fetchWord s).toNat s.pc.toNat s.sp.val (entryNumber s) k

/-! ## Memory and observation -/

/-- No step writes memory: every byte reads as before, and the memory is the same data (20 R80, 10 R53). -/
def Obligations.NoStepWritesMemory : Prop :=
  ∀ (odd : OddFetch) (s t : State), loopStep odd s = .next t → SameMemory s t ∧ t.mem = s.mem

/-- The fetch is the only read of memory: a step depends on no byte but the two it fetches; the spec infers it in 20 R72. -/
def Obligations.FetchIsTheOnlyMemoryRead : Prop :=
  ∀ (odd : OddFetch) (s : State) (m : Memory),
    Memory.read m s.pc.toNat = Memory.read s.mem s.pc.toNat →
    Memory.read m (s.pc.toNat + 1) = Memory.read s.mem (s.pc.toNat + 1) →
    loopStep odd { s with mem := m } =
      match loopStep odd s with
      | .next t => .next { t with mem := m }
      | .fault r => .fault r
      | .refused r => .refused r

/-- A dead call-stack entry is never observed (10 R42): machines that differ in dead entries only step to machines that differ
in dead entries only, for as many steps as one of them takes. -/
def Obligations.DeadStackEntriesAreNeverObserved : Prop :=
  ∀ (odd : OddFetch) (n : Nat) (s s' t : State), AgreeButDead s s' → Steps odd n s t →
    ∃ t', Steps odd n s' t' ∧ AgreeButDead t t'

/-- After a push the pop answers the value pushed and leaves the registers, pc, memory, run state, `sp` and every live entry as they
were (10 R43, R44, R46). -/
def Obligations.PopAfterPushAnswersThePushedValue : Prop :=
  ∀ (v : PC) (s : State), s.sp.val < 16 →
    ∃ t u, push v s = some t ∧ pop t = some (v, u) ∧ AgreeButDead s u

/-- The call stack is a bounded LIFO (42 R153, 10 R46): a list of values is pushed exactly when it fits, and popping as many gives
it back in reverse order with `sp` as before. -/
def Obligations.CallStackIsABoundedLifo : Prop :=
  ∀ (vs : List PC) (s : State),
    (s.sp.val + vs.length ≤ 16 →
      ∃ t u, pushAll vs s = some t ∧ t.sp.val = s.sp.val + vs.length ∧
        popAll vs.length t = some (vs.reverse, u) ∧ AgreeButDead s u) ∧
    (16 < s.sp.val + vs.length → pushAll vs s = none)

/-- CALL followed at once by RET resumes at the address after the CALL, for every target that can be fetched (42 R153). -/
def Obligations.CallThenRetResumesAfterTheCall : Prop :=
  ∀ (s : State) (nnn : Addr), Fetchable .fault s → s.sp.val < 16 → fetchWord s = encode (.call nnn) →
    nnn.toNat ≤ 4094 → nnn.toNat % 2 = 0 → wordAt s.mem nnn.toNat = encode .ret →
    ∃ t u, step s = .next t ∧ t.pc.toNat = nnn.toNat ∧ t.sp.val = s.sp.val + 1 ∧
      step t = .next u ∧ u.pc.toNat = s.pc.toNat + 2 ∧ u.sp = s.sp ∧
      (∀ k : Fin Config.stackDepth, k.val < s.sp.val → stackEntry k u = stackEntry k s) ∧
      SameRegs s u ∧ SameMemory s u ∧ u.runState = .running

/-- A JMP to its own address runs for ever and never faults: after any number of steps the machine is the same (42 R151, 40 R133). -/
def Obligations.JmpToItselfRunsForEver : Prop :=
  ∀ (odd : OddFetch) (s : State) (nnn : Addr), Fetchable odd s → nnn.toNat = s.pc.toNat →
    fetchWord s = encode (.jmp nnn) →
    SafeRun odd s ∧ ∀ n, Steps odd n s s

/-! ## Invariants -/

/-- Every step keeps the invariant of the machine: canonical memory; every live call-stack entry the even address after a CALL; a
halted machine right after a HALT; a fault record that says what happened (10 R45, R51; 40 R123; 42 R153; 60 R208). That
entries are even rests on `ODD_FETCH = fault` (D3, log 2), what the record holds on D7 (log 6). -/
def Obligations.EveryStepKeepsTheInvariant : Prop :=
  ∀ s t : State, s.Inv → step s = .next t → t.Inv

/-- The invariant holds after reset, the machine of 70 R231 created at the entry 0x000 (the spec's decision D15, log 8), which is
already `Running` (log 25, DEDUCED). -/
def Obligations.ResetMeetsTheInvariant : Prop := State.reset.Inv

/-- Every launch that is not refused starts a running machine that meets the invariant, with an empty, zeroed call stack: the loader
cannot set it (70 R237, the spec's decision D21, log 15). That a program comes to run by a launch is log 18 (DEDUCED), and
that a created machine is already `Running` is log 25 (DEDUCED). -/
def Obligations.EveryLaunchMeetsTheInvariant : Prop :=
  ∀ (cs : List LoaderCommand) (s : State), launch cs = .next s →
    s.Inv ∧ s.runState = .running ∧ s.sp.val = 0 ∧ ∀ k : Fin Config.stackDepth, stackEntry k s = 0

/-- Whatever the loader placed and however long the run, the machine it ends in meets the invariant of `EveryStepKeepsTheInvariant`
(10 R45, R51; 40 R123; 42 R153; 60 R208). That a program comes to run by a launch is log 18 (DEDUCED) with the loader's
limits, the spec's decision D21 (log 15); the run under a step limit is D16 (log 14); evenness rests on `ODD_FETCH =
fault`, D3 (log 2), and the record on D7 and D8 (log 6). It follows from the step and the launch by induction on the limit. -/
def Obligations.EveryRunEndsInTheInvariant : Prop :=
  ∀ (cs : List LoaderCommand) (s : State) (n : Nat), launch cs = .next s → (hostRun .fault n s).2.Inv

/-- Every pc that a step gives is at most 4098 unless the step faulted at the fetch, where the pc is unchanged (10 R39, the spec's
decision D5, log 4; entries of at most 4096 are D6, log 5). -/
def Obligations.PcStaysAtMost4098 : Prop :=
  ∀ (odd : OddFetch) (s t : State), (∀ k : Fin Config.stackDepth, (stackEntry k s).toNat ≤ 4096) →
    loopStep odd s = .next t →
    (∀ k : Fin Config.stackDepth, (stackEntry k t).toNat ≤ 4096) ∧
    (t.pc.toNat ≤ 4098 ∨
      (t.pc = s.pc ∧ 4094 < s.pc.toNat ∧
        t.runState = .faulted { kind := .pcOutOfRange, pc := s.pc, opcode := none }))

/-! ## Loader and host -/

/-- LoadBytes (70 R236): a load inside memory stores its bytes at rising addresses and changes nothing else; one with a byte past
0xFFF is refused, the spec's decision D21 (log 15). -/
def Obligations.LoadBytesStoresOrIsRefused : Prop :=
  ∀ (offset : Nat) (bytes : List Byte) (s : State),
    (Memory.wf s.mem = true → offset + bytes.length ≤ 4096 →
      ∃ t, loadBytes offset bytes s = .next t ∧
        (∀ n (h : n < bytes.length), Memory.read t.mem (offset + n) = bytes[n]) ∧
        (∀ a, a < offset ∨ offset + bytes.length ≤ a → Memory.read t.mem a = Memory.read s.mem a) ∧
        SameRegs s t ∧ SameStack s t ∧ t.pc = s.pc ∧ t.runState = s.runState ∧ Memory.wf t.mem = true) ∧
    (bytes ≠ [] → 4096 < offset + bytes.length →
      loadBytes offset bytes s = .refused (.loadOutsideMemory offset bytes.length))

/-- SetReg and SetEntry (70 R236): any register, `x[15]` included, and any 13-bit entry, each writing nothing else. That an entry is not
validated is the spec's decision D15 (log 8). -/
def Obligations.LoaderSetsRegistersAndEntry : Prop :=
  (∀ (i : RegIdx) (v : Byte) (s : State),
    ∃ t, applyCommand (.setReg i v) s = .next t ∧
      (∀ r : RegIdx, readReg r t = if r = i then v else readReg r s) ∧
      t.pc = s.pc ∧ SameStack s t ∧ SameMemory s t ∧ t.runState = s.runState) ∧
  (∀ (e : PC) (s : State),
    ∃ t, applyCommand (.setEntry e) s = .next t ∧ t.pc = e ∧
      SameRegs s t ∧ SameStack s t ∧ SameMemory s t ∧ t.runState = s.runState)

/-- How a run under a step limit ends (40 R134, 60 R214): with `Halted` exactly when the machine is halted, with a fault exactly when it
is faulted, and otherwise `Stopped`, in the state of the last completed step. That `Stopped` is its own outcome is the
spec's decision D16 (log 14). -/
def Obligations.RunEndIsTheRunState : Prop :=
  ∀ (odd : OddFetch) (n : Nat) (s : State),
    ((hostRun odd n s).1 = .halted ↔ (hostRun odd n s).2.runState = .halted) ∧
    (∀ r, (hostRun odd n s).1 = .faulted r ↔ (hostRun odd n s).2.runState = .faulted r) ∧
    ((hostRun odd n s).1 = .stopped ↔ (hostRun odd n s).2.runState = .running) ∧
    ((hostRun odd n s).1 = .stopped → Steps odd n s (hostRun odd n s).2) ∧
    ∃ m ≤ n, Steps odd m s (hostRun odd n s).2

/-- A longer step limit never changes a run that has ended: only `Stopped` depends on the limit (40 R133, 60 R214; D16, log 14). -/
def Obligations.LongerLimitKeepsTheEndOfARun : Prop :=
  ∀ (odd : OddFetch) (n k : Nat) (s : State), (hostRun odd n s).1 ≠ .stopped →
    hostRun odd (n + k) s = hostRun odd n s

/-- Separate instances share nothing (20 R87, 60 R221): after any turns of any number of instances, each is in the state that it
reaches when it runs alone for as many steps as it had turns, whatever the others are and do, and whichever number it
has among them. Setting instances side by side and giving them turns is the model's reading (log 28, DESIGN CHOICE); a stopped
instance keeps its state (40 R132), and a run of so many steps is the spec's decision D16 (log 14). -/
def Obligations.InstancesRunAsIfAlone : Prop :=
  ∀ (odd : OddFetch) (n : Nat) (turns : List (Fin n)) (ms : Vector State n) (k : Fin n),
    (runTurns odd turns ms)[k] = (hostRun odd (turns.count k) ms[k]).2
end

