-- ==== Sys2Proof/Laws/Decode.lean ====
section
/-! SUPPORT. The small lemmas of fields and encodings: what each field of a word is as a number, and which fields each
format's encoding has. -/

namespace Sys2Proof

theorem wordOfBytes_toNat (hi lo : Byte) : (wordOfBytes hi lo).toNat = hi.toNat * 256 + lo.toNat := by
  have := lo.isLt
  simp only [wordOfBytes, BitVec.toNat_append, Nat.shiftLeft_eq]
  rw [Nat.mul_comm, ← Nat.two_pow_add_eq_or_of_lt (by omega)]

theorem fields_C_toNat (w : Word) : (fields w).C.toNat = w.toNat / 4096 := by
  have := w.isLt
  simp [fields, Nat.shiftRight_eq_div_pow]
  omega

theorem fields_X_toNat (w : Word) : (fields w).X.toNat = w.toNat / 256 % 16 := by
  simp [fields, Nat.shiftRight_eq_div_pow]

theorem fields_Y_toNat (w : Word) : (fields w).Y.toNat = w.toNat / 16 % 16 := by
  simp [fields, Nat.shiftRight_eq_div_pow]

theorem fields_KK_toNat (w : Word) : (fields w).KK.toNat = w.toNat % 256 := by
  simp [fields]

theorem fields_N_toNat (w : Word) : (fields w).N.toNat = w.toNat % 16 := by
  simp [fields]

theorem fields_NNN_toNat (w : Word) : (fields w).NNN.toNat = w.toNat % 4096 := by
  simp [fields]

theorem encodeNNN_toNat (c : Nibble) (nnn : Addr) :
    (encodeNNN c nnn).toNat = c.toNat * 4096 + nnn.toNat := by
  have := nnn.isLt
  simp only [encodeNNN, BitVec.toNat_append, Nat.shiftLeft_eq]
  rw [Nat.mul_comm, ← Nat.two_pow_add_eq_or_of_lt (by omega)]

theorem encodeXKK_toNat (c : Nibble) (x : RegIdx) (kk : Byte) :
    (encodeXKK c x kk).toNat = c.toNat * 4096 + x.toNat * 256 + kk.toNat := by
  have := x.isLt
  have := kk.isLt
  have e : (x ++ kk : BitVec 12).toNat = x.toNat * 256 + kk.toNat := by
    simp only [BitVec.toNat_append, Nat.shiftLeft_eq]
    rw [Nat.mul_comm, ← Nat.two_pow_add_eq_or_of_lt (by omega)]
  rw [show encodeXKK c x kk = encodeNNN c (x ++ kk : BitVec 12) from rfl, encodeNNN_toNat, e]
  ring

theorem encodeXYN_toNat (c : Nibble) (x y : RegIdx) (n : Nibble) :
    (encodeXYN c x y n).toNat = c.toNat * 4096 + x.toNat * 256 + y.toNat * 16 + n.toNat := by
  have := y.isLt
  have := n.isLt
  have e : (y ++ n : BitVec 8).toNat = y.toNat * 16 + n.toNat := by
    simp only [BitVec.toNat_append, Nat.shiftLeft_eq]
    rw [Nat.mul_comm, ← Nat.two_pow_add_eq_or_of_lt (by omega)]
  rw [show encodeXYN c x y n = encodeXKK c x (y ++ n : BitVec 8) from rfl, encodeXKK_toNat, e]
  ring

theorem fields_encodeNNN (c : Nibble) (nnn : Addr) :
    (fields (encodeNNN c nnn)).C = c ∧ (fields (encodeNNN c nnn)).NNN = nnn := by
  have := nnn.isLt
  constructor <;> apply BitVec.eq_of_toNat_eq
  · rw [fields_C_toNat, encodeNNN_toNat]; omega
  · rw [fields_NNN_toNat, encodeNNN_toNat]; omega

theorem fields_encodeXKK (c : Nibble) (x : RegIdx) (kk : Byte) :
    (fields (encodeXKK c x kk)).C = c ∧ (fields (encodeXKK c x kk)).X = x ∧
      (fields (encodeXKK c x kk)).KK = kk := by
  have := kk.isLt
  have := x.isLt
  refine ⟨?_, ?_, ?_⟩ <;> apply BitVec.eq_of_toNat_eq
  · rw [fields_C_toNat, encodeXKK_toNat]; omega
  · rw [fields_X_toNat, encodeXKK_toNat]; omega
  · rw [fields_KK_toNat, encodeXKK_toNat]; omega

theorem fields_encodeXYN (c : Nibble) (x y : RegIdx) (n : Nibble) :
    (fields (encodeXYN c x y n)).C = c ∧ (fields (encodeXYN c x y n)).X = x ∧
      (fields (encodeXYN c x y n)).Y = y ∧ (fields (encodeXYN c x y n)).N = n := by
  have := x.isLt
  have := y.isLt
  have := n.isLt
  refine ⟨?_, ?_, ?_, ?_⟩ <;> apply BitVec.eq_of_toNat_eq
  · rw [fields_C_toNat, encodeXYN_toNat]; omega
  · rw [fields_X_toNat, encodeXYN_toNat]; omega
  · rw [fields_Y_toNat, encodeXYN_toNat]; omega
  · rw [fields_N_toNat, encodeXYN_toNat]; omega

/-- `decodeWord` answers an instruction exactly where `dispatch` does. -/
theorem decodeWord_ok (w : Word) (i : Instr) : decodeWord w = .ok i ↔ dispatch w = some i := by
  unfold decodeWord
  cases dispatch w <;> simp

theorem decodeWord_error (w : Word) (e : DecodeError) :
    decodeWord w = .error e ↔ dispatch w = none ∧ e = .unhandledOpcode w := by
  unfold decodeWord
  cases dispatch w <;> simp [eq_comm]

/-- What `decode` does with two bytes and a rest. -/
theorem decode_cons_cons (hi lo : Byte) (rest : List Byte) :
    decode (hi :: lo :: rest) = (decodeWord (wordOfBytes hi lo)).map (fun i => (i, rest)) := by
  simp only [decode]
  cases decodeWord (wordOfBytes hi lo) <;> rfl

theorem wordOfBytes_hi_lo (w : Word) : wordOfBytes (hiByte w) (loByte w) = w := by
  apply BitVec.eq_of_toNat_eq
  have := w.isLt
  rw [wordOfBytes_toNat]
  simp [hiByte, loByte, Nat.shiftRight_eq_div_pow]
  omega

theorem hiByte_wordOfBytes (hi lo : Byte) : hiByte (wordOfBytes hi lo) = hi := by
  apply BitVec.eq_of_toNat_eq
  have := lo.isLt
  have := hi.isLt
  have e := wordOfBytes_toNat hi lo
  simp only [hiByte, BitVec.extractLsb'_toNat, Nat.shiftRight_eq_div_pow]
  omega

theorem loByte_wordOfBytes (hi lo : Byte) : loByte (wordOfBytes hi lo) = lo := by
  apply BitVec.eq_of_toNat_eq
  have := lo.isLt
  have e := wordOfBytes_toNat hi lo
  simp only [loByte, BitVec.extractLsb'_toNat, Nat.shiftRight_zero]
  omega

end Sys2Proof
end

