-- ==== Sys2Proof/Laws/State.lean ====
section
/-! SUPPORT. One lemma per field per state update, so that no later proof unfolds a record update, and the same for the
two accessors `readReg` and `stackEntry`. -/

namespace Sys2Proof.Machine

/-! ### writeReg -/

@[simp] theorem writeReg_pc (i : RegIdx) (v : Byte) (s : State) : (writeReg i v s).pc = s.pc := rfl

@[simp] theorem writeReg_stack (i : RegIdx) (v : Byte) (s : State) : (writeReg i v s).stack = s.stack := rfl

@[simp] theorem writeReg_sp (i : RegIdx) (v : Byte) (s : State) : (writeReg i v s).sp = s.sp := rfl

@[simp] theorem writeReg_mem (i : RegIdx) (v : Byte) (s : State) : (writeReg i v s).mem = s.mem := rfl

@[simp] theorem writeReg_runState (i : RegIdx) (v : Byte) (s : State) : (writeReg i v s).runState = s.runState := rfl

@[simp] theorem stackEntry_writeReg (j : Fin Config.stackDepth) (i : RegIdx) (v : Byte) (s : State) :
    stackEntry j (writeReg i v s) = stackEntry j s := rfl

/-! ### writeFlag -/

@[simp] theorem writeFlag_pc (v : Byte) (s : State) : (writeFlag v s).pc = s.pc := rfl

@[simp] theorem writeFlag_stack (v : Byte) (s : State) : (writeFlag v s).stack = s.stack := rfl

@[simp] theorem writeFlag_sp (v : Byte) (s : State) : (writeFlag v s).sp = s.sp := rfl

@[simp] theorem writeFlag_mem (v : Byte) (s : State) : (writeFlag v s).mem = s.mem := rfl

@[simp] theorem writeFlag_runState (v : Byte) (s : State) : (writeFlag v s).runState = s.runState := rfl

@[simp] theorem stackEntry_writeFlag (j : Fin Config.stackDepth) (v : Byte) (s : State) :
    stackEntry j (writeFlag v s) = stackEntry j s := rfl

/-! ### setPc -/

@[simp] theorem setPc_regs (p : PC) (s : State) : (setPc p s).regs = s.regs := rfl

@[simp] theorem setPc_stack (p : PC) (s : State) : (setPc p s).stack = s.stack := rfl

@[simp] theorem setPc_sp (p : PC) (s : State) : (setPc p s).sp = s.sp := rfl

@[simp] theorem setPc_mem (p : PC) (s : State) : (setPc p s).mem = s.mem := rfl

@[simp] theorem setPc_runState (p : PC) (s : State) : (setPc p s).runState = s.runState := rfl

@[simp] theorem setPc_pc (p : PC) (s : State) : (setPc p s).pc = p := rfl

@[simp] theorem readReg_setPc (r : RegIdx) (p : PC) (s : State) : readReg r (setPc p s) = readReg r s := rfl

@[simp] theorem stackEntry_setPc (j : Fin Config.stackDepth) (p : PC) (s : State) :
    stackEntry j (setPc p s) = stackEntry j s := rfl

/-! ### addPc2 -/

@[simp] theorem addPc2_regs (s : State) : (addPc2 s).regs = s.regs := rfl

@[simp] theorem addPc2_stack (s : State) : (addPc2 s).stack = s.stack := rfl

@[simp] theorem addPc2_sp (s : State) : (addPc2 s).sp = s.sp := rfl

@[simp] theorem addPc2_mem (s : State) : (addPc2 s).mem = s.mem := rfl

@[simp] theorem addPc2_runState (s : State) : (addPc2 s).runState = s.runState := rfl

@[simp] theorem addPc2_pc (s : State) : (addPc2 s).pc = s.pc + 2 := rfl

@[simp] theorem readReg_addPc2 (r : RegIdx) (s : State) : readReg r (addPc2 s) = readReg r s := rfl

@[simp] theorem stackEntry_addPc2 (j : Fin Config.stackDepth) (s : State) :
    stackEntry j (addPc2 s) = stackEntry j s := rfl

/-! ### advance -/

@[simp] theorem advance_regs (s : State) : (advance s).regs = s.regs := rfl

@[simp] theorem advance_stack (s : State) : (advance s).stack = s.stack := rfl

@[simp] theorem advance_sp (s : State) : (advance s).sp = s.sp := rfl

@[simp] theorem advance_mem (s : State) : (advance s).mem = s.mem := rfl

@[simp] theorem advance_runState (s : State) : (advance s).runState = s.runState := rfl

@[simp] theorem advance_pc (s : State) : (advance s).pc = s.pc + 2 := rfl

@[simp] theorem readReg_advance (r : RegIdx) (s : State) : readReg r (advance s) = readReg r s := rfl

@[simp] theorem stackEntry_advance (j : Fin Config.stackDepth) (s : State) :
    stackEntry j (advance s) = stackEntry j s := rfl

/-! ### haltRun -/

@[simp] theorem haltRun_regs (s : State) : (haltRun s).regs = s.regs := rfl

@[simp] theorem haltRun_pc (s : State) : (haltRun s).pc = s.pc := rfl

@[simp] theorem haltRun_stack (s : State) : (haltRun s).stack = s.stack := rfl

@[simp] theorem haltRun_sp (s : State) : (haltRun s).sp = s.sp := rfl

@[simp] theorem haltRun_mem (s : State) : (haltRun s).mem = s.mem := rfl

@[simp] theorem haltRun_runState (s : State) : (haltRun s).runState = .halted := rfl

@[simp] theorem readReg_haltRun (r : RegIdx) (s : State) : readReg r (haltRun s) = readReg r s := rfl

@[simp] theorem stackEntry_haltRun (j : Fin Config.stackDepth) (s : State) :
    stackEntry j (haltRun s) = stackEntry j s := rfl

/-! ### raiseFault -/

@[simp] theorem raiseFault_regs (k : FaultKind) (o : Option Word) (s : State) : (raiseFault k o s).regs = s.regs := rfl

@[simp] theorem raiseFault_pc (k : FaultKind) (o : Option Word) (s : State) : (raiseFault k o s).pc = s.pc := rfl

@[simp] theorem raiseFault_stack (k : FaultKind) (o : Option Word) (s : State) : (raiseFault k o s).stack = s.stack := rfl

@[simp] theorem raiseFault_sp (k : FaultKind) (o : Option Word) (s : State) : (raiseFault k o s).sp = s.sp := rfl

@[simp] theorem raiseFault_mem (k : FaultKind) (o : Option Word) (s : State) : (raiseFault k o s).mem = s.mem := rfl

@[simp] theorem raiseFault_runState (k : FaultKind) (o : Option Word) (s : State) : (raiseFault k o s).runState = .faulted { kind := k, pc := s.pc, opcode := o } := rfl

@[simp] theorem readReg_raiseFault (r : RegIdx) (k : FaultKind) (o : Option Word) (s : State) : readReg r (raiseFault k o s) = readReg r s := rfl

@[simp] theorem stackEntry_raiseFault (j : Fin Config.stackDepth) (k : FaultKind) (o : Option Word) (s : State) :
    stackEntry j (raiseFault k o s) = stackEntry j s := rfl

/-! ### Registers after a register write -/

theorem readReg_writeReg (r i : RegIdx) (v : Byte) (s : State) :
    readReg r (writeReg i v s) = if r = i then v else readReg r s := by
  unfold readReg writeReg
  rw [Vector.getElem_set]
  by_cases h : r = i
  · simp [h]
  · have : ¬ i.toNat = r.toNat := fun e => h (BitVec.eq_of_toNat_eq e.symm)
    simp [h, this]

@[simp] theorem readReg_writeReg_same (i : RegIdx) (v : Byte) (s : State) :
    readReg i (writeReg i v s) = v := by simp [readReg_writeReg]

theorem readReg_writeReg_other (r i : RegIdx) (v : Byte) (s : State) (h : r ≠ i) :
    readReg r (writeReg i v s) = readReg r s := by simp [readReg_writeReg, h]

theorem readReg_writeFlag (r : RegIdx) (v : Byte) (s : State) :
    readReg r (writeFlag v s) = if r = Config.flagReg then v else readReg r s :=
  readReg_writeReg r _ v s

/-- Equal reads of every register are an equal register file. -/
theorem regs_ext (s t : State) (h : ∀ r, readReg r t = readReg r s) : t.regs = s.regs := by
  apply Vector.ext
  intro i hi
  have := h (BitVec.ofNat 4 i)
  have e : (BitVec.ofNat 4 i).toNat = i := by
    rw [BitVec.toNat_ofNat]; exact Nat.mod_eq_of_lt hi
  simpa [readReg, e] using this

/-- Equal entries are an equal call stack. -/
theorem stack_ext (s t : State) (h : ∀ k, stackEntry k t = stackEntry k s) : t.stack = s.stack := by
  apply Vector.ext
  intro i hi
  exact h ⟨i, hi⟩

/-! ### Creation -/

@[simp] theorem created_pc (e : PC) : (State.created e).pc = e := rfl

@[simp] theorem created_sp (e : PC) : (State.created e).sp = 0 := rfl

@[simp] theorem created_mem (e : PC) : (State.created e).mem = [] := rfl

@[simp] theorem created_runState (e : PC) : (State.created e).runState = .running := rfl

@[simp] theorem readReg_created (r : RegIdx) (e : PC) : readReg r (State.created e) = 0x00 := by
  simp [readReg, State.created]

@[simp] theorem stackEntry_created (k : Fin Config.stackDepth) (e : PC) :
    stackEntry k (State.created e) = 0 := by
  simp [stackEntry, State.created]

end Sys2Proof.Machine
end

