-- ==== Sys2Proof/Laws/Ops.lean ====
section
/-! SUPPORT. One lemma per shared operation that says everything it can do, so that proofs cite it and do not unfold
the operation. -/

namespace Sys2Proof.Machine

/-- What `push` can do (10 R43): it fails exactly on a full stack; otherwise it writes the entry at `sp`, raises `sp` by
one and changes nothing else. -/
theorem push_cases (v : PC) (s : State) :
    (s.sp.val = Config.stackDepth ∧ push v s = none) ∨
      ∃ h : s.sp.val < Config.stackDepth, ∃ t, push v s = some t ∧ t.sp.val = s.sp.val + 1 ∧
        (∀ k, stackEntry k t = if k = ⟨s.sp.val, h⟩ then v else stackEntry k s) ∧
        t.regs = s.regs ∧ t.pc = s.pc ∧ t.mem = s.mem ∧ t.runState = s.runState := by
  by_cases h : s.sp.val < Config.stackDepth
  · refine .inr ⟨h, _, dif_pos h, rfl, ?_, rfl, rfl, rfl, rfl⟩
    intro k
    simp only [stackEntry, Fin.getElem_fin]
    rw [Vector.getElem_set]
    by_cases e : s.sp.val = k.val
    · simp [e]
    · have : ¬ k = ⟨s.sp.val, h⟩ := fun c => e (by rw [c])
      simp [e, this]
  · exact .inl ⟨by have := s.sp.isLt; omega, dif_neg h⟩

/-- What `pop` can do (10 R44): it fails exactly on an empty stack; otherwise it lowers `sp` by one, answers the entry
there and changes nothing else. -/
theorem pop_cases (s : State) :
    (s.sp.val = 0 ∧ pop s = none) ∨
      ∃ h : s.sp.val - 1 < Config.stackDepth, ∃ t, 0 < s.sp.val ∧
        pop s = some (stackEntry ⟨s.sp.val - 1, h⟩ s, t) ∧ t.sp.val = s.sp.val - 1 ∧
        t.stack = s.stack ∧ t.regs = s.regs ∧ t.pc = s.pc ∧ t.mem = s.mem ∧ t.runState = s.runState := by
  by_cases h : s.sp.val = 0
  · exact .inl ⟨h, dif_pos h⟩
  · have hlt : s.sp.val - 1 < Config.stackDepth := by have := s.sp.isLt; omega
    exact .inr ⟨hlt, _, by omega, dif_neg h, rfl, rfl, rfl, rfl, rfl, rfl⟩

/-- What `skipIf` can do (43 R163). -/
theorem skipIf_eq (c : Bool) (s : State) : skipIf c s = setPc (if c = true then s.pc + 2 else s.pc) s := by
  unfold skipIf
  split <;> rfl

/-- The advance is exact for the pc of a fetch (10 R39, R40). -/
theorem addPc2_exact {s : State} (h : s.pc.toNat ≤ 8189) : (addPc2 s).pc.toNat = s.pc.toNat + 2 := by
  rw [addPc2_pc, BitVec.toNat_add]
  simp
  omega

/-- The target of a JMP or CALL is its address field (30 R96). -/
@[simp] theorem targetOperand_toNat (nnn : Addr) : (targetOperand nnn).toNat = nnn.toNat := by
  have := nnn.isLt
  simp [targetOperand]
  omega

/-- The sum byte is the exact sum modulo 256 (45 R184). -/
@[simp] theorem sumByte_toNat (a b : Byte) : (sumByte a b).toNat = (a.toNat + b.toNat) % 256 := by
  simp [sumByte, exactSum]

/-- The carry is 1 when the exact sum exceeds 255, otherwise 0 (45 R184). -/
theorem carryOut_toNat (a b : Byte) : (carryOut a b).toNat = if a.toNat + b.toNat > 255 then 1 else 0 := by
  unfold carryOut exactSum
  split <;> rfl

end Sys2Proof.Machine
end

