-- ==== Sys2Proof/Laws/Step.lean ====
section
/-! SUPPORT. What the loop's parts can do: the fetch guard, the execution of a fetched word, and one step. -/

namespace Sys2Proof.Machine

/-- What the fetch guard answers: the range fault above 4094 (40 R122), then, with `ODD_FETCH = fault`, the alignment
fault at an odd pc (40 R123), and otherwise nothing. -/
theorem fetchGuard_cases (odd : OddFetch) (pc : PC) :
    (4094 < pc.toNat ∧ fetchGuard odd pc = some .pcOutOfRange) ∨
    (pc.toNat ≤ 4094 ∧ odd = .fault ∧ pc.toNat % 2 = 1 ∧ fetchGuard odd pc = some .pcMisaligned) ∨
    (pc.toNat ≤ 4094 ∧ (odd = .fault → pc.toNat % 2 = 0) ∧ fetchGuard odd pc = none) := by
  simp only [fetchGuard, Config.memSize]
  by_cases h1 : pc.toNat > 4096 - 2
  · rw [if_pos h1]
    exact .inl ⟨by omega, rfl⟩
  · rw [if_neg h1]
    by_cases h2 : odd = .fault ∧ pc.toNat % 2 = 1
    · rw [if_pos h2]
      exact .inr (.inl ⟨by omega, h2.1, h2.2, rfl⟩)
    · rw [if_neg h2]
      refine .inr (.inr ⟨by omega, fun e => ?_, rfl⟩)
      have : ¬ pc.toNat % 2 = 1 := fun c => h2 ⟨e, c⟩
      omega

/-- When the fetch guard passes. -/
theorem fetchGuard_none (odd : OddFetch) (pc : PC) :
    fetchGuard odd pc = none ↔ pc.toNat ≤ 4094 ∧ (odd = .fault → pc.toNat % 2 = 0) := by
  rcases fetchGuard_cases odd pc with ⟨h, e⟩ | ⟨h, ho, hp, e⟩ | ⟨h, hp, e⟩
  · simp [e]; omega
  · rw [e]
    exact iff_of_false (by simp) fun c => by have := c.2 ho; omega
  · simp only [e, true_iff]; exact ⟨h, hp⟩

/-- What one step can do: nothing on a stopped machine; on a running one a fetch fault, an unhandled opcode after the
advance, or the execution of the decoded instruction after the advance (40 R121). -/
theorem loopStep_cases (odd : OddFetch) (s : State) :
    (s.runState = .halted ∧ loopStep odd s = .fault .runHalted) ∨
    (∃ r, s.runState = .faulted r ∧ loopStep odd s = .fault (.runFaulted r)) ∨
    (s.runState = .running ∧
      ((∃ k, fetchGuard odd s.pc = some k ∧ loopStep odd s = .next (raiseFault k none s)) ∨
       (fetchGuard odd s.pc = none ∧
         ((decodeWord (fetchWord s) = .error (.unhandledOpcode (fetchWord s)) ∧
            loopStep odd s = .next (raiseFault .unhandledOpcode (some (fetchWord s)) (advance s))) ∨
          ∃ i, decodeWord (fetchWord s) = .ok i ∧ loopStep odd s = exec i (advance s))))) := by
  unfold loopStep
  cases hr : s.runState with
  | halted => exact .inl ⟨rfl, rfl⟩
  | faulted r => exact .inr (.inl ⟨r, rfl, rfl⟩)
  | running =>
    refine .inr (.inr ⟨rfl, ?_⟩)
    cases hg : fetchGuard odd s.pc with
    | some k => exact .inl ⟨k, rfl, rfl⟩
    | none =>
      refine .inr ⟨rfl, ?_⟩
      simp only [executeFetched, decodeWord]
      cases dispatch (fetchWord s) with
      | none => exact .inl ⟨rfl, rfl⟩
      | some i => exact .inr ⟨i, rfl, rfl⟩

end Sys2Proof.Machine
end

