-- ==== Sys2Proof/Laws/Exec.lean ====
section
/-! SUPPORT. What the execution of an instruction can do, said once: it always answers a next state, and that state is one
of a few updates of the state before it. -/

namespace Sys2Proof.Machine

/-- What `exec` can do. -/
theorem exec_cases (i : Instr) (s : State) :
    (i = .halt ∧ exec i s = .next (haltRun s)) ∨
    (i = .cls ∧ exec i s = .next s) ∨
    (∃ x v, exec i s = .next (writeReg x v s)) ∨
    (∃ x y v c, i = .addReg x y ∧ exec i s = .next (writeFlag c (writeReg x v s))) ∨
    (∃ c, ((∃ x kk, i = .seImm x kk) ∨ (∃ x kk, i = .sneImm x kk) ∨ (∃ x y, i = .seReg x y)) ∧
      exec i s = .next (skipIf c s)) ∨
    (∃ nnn, i = .jmp nnn ∧ exec i s = .next (setPc (targetOperand nnn) s)) ∨
    (∃ nnn t, i = .call nnn ∧ push s.pc s = some t ∧ exec i s = .next (setPc (targetOperand nnn) t)) ∨
    (∃ nnn, i = .call nnn ∧ push s.pc s = none ∧
      exec i s = .next (raiseFault .stackOverflow (some (encode (.call nnn))) s)) ∨
    (∃ p t, i = .ret ∧ pop s = some (p, t) ∧ exec i s = .next (setPc p t)) ∨
    (i = .ret ∧ pop s = none ∧ exec i s = .next (raiseFault .stackUnderflow (some (encode .ret)) s)) := by
  cases i with
  | halt => exact .inl ⟨rfl, rfl⟩
  | cls => exact .inr (.inl ⟨rfl, rfl⟩)
  | ret =>
    cases h : pop s with
    | none => simp [exec, execRet, h]
    | some q => obtain ⟨p, t⟩ := q; simp [exec, execRet, h]
  | jmp nnn => simp [exec, execJmp]
  | call nnn =>
    cases h : push s.pc s with
    | none => simp [exec, execCall, h]
    | some t => simp [exec, execCall, h]
  | seImm x kk => exact .inr (.inr (.inr (.inr (.inl ⟨_, .inl ⟨x, kk, rfl⟩, rfl⟩))))
  | sneImm x kk => exact .inr (.inr (.inr (.inr (.inl ⟨_, .inr (.inl ⟨x, kk, rfl⟩), rfl⟩))))
  | seReg x y => exact .inr (.inr (.inr (.inr (.inl ⟨_, .inr (.inr ⟨x, y, rfl⟩), rfl⟩))))
  | ldImm x kk => exact .inr (.inr (.inl ⟨_, _, rfl⟩))
  | addImm x kk => exact .inr (.inr (.inl ⟨_, _, rfl⟩))
  | ldReg x y => exact .inr (.inr (.inl ⟨_, _, rfl⟩))
  | orReg x y => exact .inr (.inr (.inl ⟨_, _, rfl⟩))
  | andReg x y => exact .inr (.inr (.inl ⟨_, _, rfl⟩))
  | xorReg x y => exact .inr (.inr (.inl ⟨_, _, rfl⟩))
  | addReg x y => exact .inr (.inr (.inr (.inl ⟨x, y, _, _, rfl, rfl⟩)))

end Sys2Proof.Machine
end

