-- ==== Sys2Proof/Laws/HostPort.lean ====
section
/-! SUPPORT. What a turn of one of several instances can do. -/

namespace Sys2Proof.Machine

/-- A turn steps the instance it names (60 R221). -/
@[simp] theorem instanceTurn_self {n : Nat} (odd : OddFetch) (k : Fin n) (ms : Vector State n) :
    (instanceTurn odd k ms)[k] = (hostRun odd 1 ms[k]).2 := by
  simp [instanceTurn]

/-- A turn leaves every other instance alone (20 R87). -/
theorem instanceTurn_other {n : Nat} (odd : OddFetch) {k j : Fin n} (h : j ≠ k) (ms : Vector State n) :
    (instanceTurn odd k ms)[j] = ms[j] := by
  have : k.val ≠ j.val := fun e => h (Fin.ext e.symm)
  simp [instanceTurn, Vector.getElem_set_ne, this]

end Sys2Proof.Machine
end

