-- ==== Sys2Proof/Laws/Memory.lean ====
section
/-! SUPPORT. The laws of memory: reads after writes, the canonical form is kept by every memory operation, and two
memories in canonical form that read the same are the same data. -/

namespace Sys2Proof.Machine

@[simp] theorem Memory.read_nil (a : Nat) : Memory.read [] a = unlistedByte := rfl

theorem Memory.read_cons (k : Nat) (b : Byte) (m : Memory) (a : Nat) :
    Memory.read ((k, b) :: m) a = if k = a then b else Memory.read m a := rfl

theorem Memory.wfFrom_cons (lo k : Nat) (b : Byte) (m : Memory) :
    Memory.wfFrom lo ((k, b) :: m) = true ↔
      lo ≤ k ∧ k < Config.memSize ∧ b ≠ unlistedByte ∧ Memory.wfFrom (k + 1) m = true := by
  simp [Memory.wfFrom, and_assoc]

theorem Memory.wfFrom_mono {lo lo' : Nat} (h : lo' ≤ lo) {m : Memory}
    (hm : Memory.wfFrom lo m = true) : Memory.wfFrom lo' m = true := by
  cases m with
  | nil => rfl
  | cons c m =>
    obtain ⟨k, b⟩ := c
    rw [Memory.wfFrom_cons] at hm ⊢
    exact ⟨le_trans h hm.1, hm.2⟩

/-- Below the first address of a canonical list nothing is listed. -/
theorem Memory.read_below {lo : Nat} {m : Memory} (hm : Memory.wfFrom lo m = true) {a : Nat} (h : a < lo) :
    Memory.read m a = unlistedByte := by
  induction m generalizing lo with
  | nil => rfl
  | cons c m ih =>
    obtain ⟨k, b⟩ := c
    rw [Memory.wfFrom_cons] at hm
    rw [Memory.read_cons, if_neg (by omega)]
    exact ih hm.2.2.2 (by omega)

/-- Outside memory nothing is listed. -/
theorem Memory.read_outside {lo : Nat} {m : Memory} (hm : Memory.wfFrom lo m = true) {a : Nat}
    (h : Config.memSize ≤ a) : Memory.read m a = unlistedByte := by
  induction m generalizing lo with
  | nil => rfl
  | cons c m ih =>
    obtain ⟨k, b⟩ := c
    rw [Memory.wfFrom_cons] at hm
    rw [Memory.read_cons, if_neg (by omega)]
    exact ih hm.2.2.2

/-- A write leaves every other byte alone, whatever the list. -/
theorem Memory.read_write_other (m : Memory) (a a' : Nat) (b : Byte) (h : a' ≠ a) :
    Memory.read (Memory.write m a b) a' = Memory.read m a' := by
  induction m with
  | nil =>
    simp only [Memory.write]
    split
    · rfl
    · rw [Memory.read_cons, if_neg (by omega)]
  | cons c m ih =>
    obtain ⟨k, d⟩ := c
    simp only [Memory.write]
    split
    · split
      · rfl
      · rw [Memory.read_cons, if_neg (by omega)]
    · split
      · split
        · rw [Memory.read_cons, if_neg (by omega)]
        · simp only [Memory.read_cons]
          rw [if_neg (by omega), if_neg (by omega)]
      · simp only [Memory.read_cons, ih]

/-- A byte written is read back, in a canonical memory. -/
theorem Memory.read_write_same_from {lo : Nat} {m : Memory} (hm : Memory.wfFrom lo m = true) (a : Nat) (b : Byte) :
    Memory.read (Memory.write m a b) a = b := by
  induction m generalizing lo with
  | nil =>
    simp only [Memory.write]
    split
    · simp_all
    · simp [Memory.read_cons]
  | cons c m ih =>
    obtain ⟨k, d⟩ := c
    have hm' := (Memory.wfFrom_cons _ _ _ _).1 hm
    simp only [Memory.write]
    split
    · next hlt =>
      split
      · next hb =>
        rw [Memory.read_cons, if_neg (by omega), hb]
        exact Memory.read_below hm'.2.2.2 (by omega)
      · simp [Memory.read_cons]
    · split
      · next hlt heq =>
        split
        · next hb => rw [hb]; exact Memory.read_below hm'.2.2.2 (by omega)
        · simp [Memory.read_cons]
      · next hlt hne =>
        rw [Memory.read_cons, if_neg (by omega)]
        exact ih hm'.2.2.2

/-- A write inside memory keeps the canonical form. -/
theorem Memory.wfFrom_write {lo : Nat} {m : Memory} (hm : Memory.wfFrom lo m = true) {a : Nat} (b : Byte)
    (hlo : lo ≤ a) (ha : a < Config.memSize) : Memory.wfFrom lo (Memory.write m a b) = true := by
  induction m generalizing lo with
  | nil =>
    simp only [Memory.write]
    split
    · rfl
    · next hb => exact (Memory.wfFrom_cons _ _ _ _).2 ⟨hlo, ha, hb, rfl⟩
  | cons c m ih =>
    obtain ⟨k, d⟩ := c
    have hm' := (Memory.wfFrom_cons _ _ _ _).1 hm
    simp only [Memory.write]
    split
    · split
      · exact hm
      · next hb =>
        exact (Memory.wfFrom_cons _ _ _ _).2
          ⟨hlo, ha, hb, (Memory.wfFrom_cons _ _ _ _).2 ⟨by omega, hm'.2⟩⟩
    · split
      · next heq =>
        subst heq
        split
        · exact Memory.wfFrom_mono (by omega) hm'.2.2.2
        · next hb => exact (Memory.wfFrom_cons _ _ _ _).2 ⟨hlo, ha, hb, hm'.2.2.2⟩
      · exact (Memory.wfFrom_cons _ _ _ _).2
          ⟨hm'.1, hm'.2.1, hm'.2.2.1, ih hm'.2.2.2 (by omega)⟩

theorem Memory.read_write_same {m : Memory} (hm : Memory.wf m = true) (a : Nat) (b : Byte) :
    Memory.read (Memory.write m a b) a = b := Memory.read_write_same_from hm a b

theorem Memory.wf_write {m : Memory} (hm : Memory.wf m = true) {a : Nat} (b : Byte) (ha : a < Config.memSize) :
    Memory.wf (Memory.write m a b) = true := Memory.wfFrom_write hm b (Nat.zero_le a) ha

/-- Writing bytes inside memory keeps the canonical form. -/
theorem Memory.wf_writeBytes {m : Memory} (hm : Memory.wf m = true) (a : Nat) (bs : List Byte)
    (h : bs = [] ∨ a + bs.length ≤ Config.memSize) : Memory.wf (Memory.writeBytes m a bs) = true := by
  induction bs generalizing m a with
  | nil => exact hm
  | cons b bs ih =>
    have hl : a + (bs.length + 1) ≤ Config.memSize := by simpa using h
    exact ih (Memory.wf_write hm b (by omega)) (a + 1) (.inr (by omega))

/-- Writing bytes leaves every byte outside their range alone, whatever the list. -/
theorem Memory.read_writeBytes_outside (m : Memory) (a : Nat) (bs : List Byte) (a' : Nat)
    (h : a' < a ∨ a + bs.length ≤ a') : Memory.read (Memory.writeBytes m a bs) a' = Memory.read m a' := by
  induction bs generalizing m a with
  | nil => rfl
  | cons b bs ih =>
    have hl : a' < a ∨ a + (bs.length + 1) ≤ a' := by simpa using h
    simp only [Memory.writeBytes]
    rw [ih _ _ (by omega), Memory.read_write_other _ _ _ _ (by omega)]

/-- Two canonical memories that read the same are the same data. -/
theorem Memory.ext_from {lo : Nat} {m m' : Memory} (hm : Memory.wfFrom lo m = true) (hm' : Memory.wfFrom lo m' = true)
    (h : ∀ a, Memory.read m a = Memory.read m' a) : m = m' := by
  induction m generalizing lo m' with
  | nil =>
    cases m' with
    | nil => rfl
    | cons c m' =>
      obtain ⟨k, b⟩ := c
      have := (Memory.wfFrom_cons _ _ _ _).1 hm'
      exact absurd (by simpa [Memory.read_cons] using (h k).symm) this.2.2.1
  | cons c m ih =>
    obtain ⟨k, b⟩ := c
    have w := (Memory.wfFrom_cons _ _ _ _).1 hm
    cases m' with
    | nil => exact absurd (by simpa [Memory.read_cons] using h k) w.2.2.1
    | cons c' m' =>
      obtain ⟨k', b'⟩ := c'
      have w' := (Memory.wfFrom_cons _ _ _ _).1 hm'
      have hk : k = k' := by
        rcases lt_trichotomy k k' with hlt | heq | hgt
        · have e := h k
          rw [Memory.read_cons, if_pos rfl, Memory.read_cons, if_neg (by omega),
            Memory.read_below w'.2.2.2 (by omega)] at e
          exact absurd e w.2.2.1
        · exact heq
        · have e := h k'
          rw [Memory.read_cons, if_neg (by omega), Memory.read_below w.2.2.2 (by omega),
            Memory.read_cons, if_pos rfl] at e
          exact absurd e.symm w'.2.2.1
      subst hk
      have hb : b = b' := by simpa [Memory.read_cons] using h k
      subst hb
      congr 1
      refine ih w.2.2.2 w'.2.2.2 fun a => ?_
      by_cases ha : k = a
      · subst ha
        rw [Memory.read_below w.2.2.2 (by omega), Memory.read_below w'.2.2.2 (by omega)]
      · simpa [Memory.read_cons, ha] using h a

theorem Memory.ext {m m' : Memory} (hm : Memory.wf m = true) (hm' : Memory.wf m' = true)
    (h : ∀ a, Memory.read m a = Memory.read m' a) : m = m' := Memory.ext_from hm hm' h

/-- The memory of a created machine is canonical. -/
theorem created_memory_wf (e : PC) : Memory.wf (State.created e).mem = true := rfl

/-- A load of the loader keeps the canonical form. -/
theorem loadBytes_wf {offset : Nat} {bytes : List Byte} {s t : State} (hs : Memory.wf s.mem = true)
    (h : loadBytes offset bytes s = .next t) : Memory.wf t.mem = true := by
  unfold loadBytes at h
  split at h
  · next hw =>
    cases h
    exact Memory.wf_writeBytes hs _ _ (by simpa [LoaderCommand.wf] using hw)
  · cases h

/-- Placing the fetched word keeps the canonical form. -/
theorem placeFetchWord_wf {w : Word} {s : State} (hs : Memory.wf s.mem = true) :
    Memory.wf (placeFetchWord w s).mem = true := by
  unfold placeFetchWord
  split
  · exact Memory.wf_writeBytes hs _ _ (.inr (by simp; omega))
  · exact hs

end Sys2Proof.Machine
end

