-- ==== Sys2Proof/Laws/PerInstr.lean ====
section
/-! SUPPORT. Statements made per instruction, about the instruction as syntax: the fields that its word has. -/

namespace Sys2Proof.Laws.OperandFields

/-- The word of an instruction of class `c` has that class, and the other fields that its format uses. -/
def Statement (i : Instr) : Prop :=
  match i with
  | .halt => (fields (encode i)).C = 0x0 ∧ (fields (encode i)).NNN = 0x000
  | .cls => (fields (encode i)).C = 0x0 ∧ (fields (encode i)).NNN = 0x0E0
  | .ret => (fields (encode i)).C = 0x0 ∧ (fields (encode i)).NNN = 0x0EE
  | .jmp nnn => (fields (encode i)).C = 0x1 ∧ (fields (encode i)).NNN = nnn
  | .call nnn => (fields (encode i)).C = 0x2 ∧ (fields (encode i)).NNN = nnn
  | .seImm x kk => (fields (encode i)).C = 0x3 ∧ (fields (encode i)).X = x ∧ (fields (encode i)).KK = kk
  | .sneImm x kk => (fields (encode i)).C = 0x4 ∧ (fields (encode i)).X = x ∧ (fields (encode i)).KK = kk
  | .seReg x y => (fields (encode i)).C = 0x5 ∧ (fields (encode i)).X = x ∧ (fields (encode i)).Y = y ∧
      (fields (encode i)).N = 0x0
  | .ldImm x kk => (fields (encode i)).C = 0x6 ∧ (fields (encode i)).X = x ∧ (fields (encode i)).KK = kk
  | .addImm x kk => (fields (encode i)).C = 0x7 ∧ (fields (encode i)).X = x ∧ (fields (encode i)).KK = kk
  | .ldReg x y => (fields (encode i)).C = 0x8 ∧ (fields (encode i)).X = x ∧ (fields (encode i)).Y = y ∧
      (fields (encode i)).N = 0x0
  | .orReg x y => (fields (encode i)).C = 0x8 ∧ (fields (encode i)).X = x ∧ (fields (encode i)).Y = y ∧
      (fields (encode i)).N = 0x1
  | .andReg x y => (fields (encode i)).C = 0x8 ∧ (fields (encode i)).X = x ∧ (fields (encode i)).Y = y ∧
      (fields (encode i)).N = 0x2
  | .xorReg x y => (fields (encode i)).C = 0x8 ∧ (fields (encode i)).X = x ∧ (fields (encode i)).Y = y ∧
      (fields (encode i)).N = 0x3
  | .addReg x y => (fields (encode i)).C = 0x8 ∧ (fields (encode i)).X = x ∧ (fields (encode i)).Y = y ∧
      (fields (encode i)).N = 0x4

theorem halt : Statement .halt := ⟨by decide, by decide⟩

theorem cls : Statement .cls := ⟨by decide, by decide⟩

theorem ret : Statement .ret := ⟨by decide, by decide⟩

theorem jmp (nnn : Addr) : Statement (.jmp nnn) := fields_encodeNNN 0x1 nnn

theorem call (nnn : Addr) : Statement (.call nnn) := fields_encodeNNN 0x2 nnn

theorem seImm (x : RegIdx) (kk : Byte) : Statement (.seImm x kk) := fields_encodeXKK 0x3 x kk

theorem sneImm (x : RegIdx) (kk : Byte) : Statement (.sneImm x kk) := fields_encodeXKK 0x4 x kk

theorem seReg (x y : RegIdx) : Statement (.seReg x y) := fields_encodeXYN 0x5 x y 0x0

theorem ldImm (x : RegIdx) (kk : Byte) : Statement (.ldImm x kk) := fields_encodeXKK 0x6 x kk

theorem addImm (x : RegIdx) (kk : Byte) : Statement (.addImm x kk) := fields_encodeXKK 0x7 x kk

theorem ldReg (x y : RegIdx) : Statement (.ldReg x y) := fields_encodeXYN 0x8 x y 0x0

theorem orReg (x y : RegIdx) : Statement (.orReg x y) := fields_encodeXYN 0x8 x y 0x1

theorem andReg (x y : RegIdx) : Statement (.andReg x y) := fields_encodeXYN 0x8 x y 0x2

theorem xorReg (x y : RegIdx) : Statement (.xorReg x y) := fields_encodeXYN 0x8 x y 0x3

theorem addReg (x y : RegIdx) : Statement (.addReg x y) := fields_encodeXYN 0x8 x y 0x4

end Sys2Proof.Laws.OperandFields
end

