-- ==== Sys2Proof/Tests/Slice0.lean ====
section
/-! SUPPORT. The model's own tests: well-formedness, decoding of words written out bit by bit from spec 30 R94 and R100, one
step on small states with the results of spec 95 section 2, and for every statement with hypotheses a state that meets
them, at boundary values. -/

namespace Sys2Proof.Tests

open Sys2Proof Sys2Proof.Machine

/-! ## Helpers -/

/-- A created machine at `pc` with one word stored there. -/
def stateAt (pc : PC) (w : Word) : State :=
  { State.reset with pc := pc, mem := Memory.writeBytes [] pc.toNat [hiByte w, loByte w] }

/-- The same machine with `sp` set and every entry holding `v`. -/
def withStack (sp : Fin 17) (v : PC) (s : State) : State :=
  { s with sp := sp, stack := Vector.replicate 16 v }

/-- The state of an outcome that has one. -/
def nextOf (o : Host.Outcome State Fault Refusal) : Option State :=
  match o with
  | .next t => some t
  | .fault _ => none
  | .refused _ => none

/-- The pc after one step. -/
def pcAfter (s : State) : Option Nat := (nextOf (step s)).map fun t => t.pc.toNat

/-- A register after one step. -/
def regAfter (r : RegIdx) (s : State) : Option Byte := (nextOf (step s)).map (readReg r)

/-- The run state after one step. -/
def runStateAfter (s : State) : Option RunState := (nextOf (step s)).map State.runState

/-! ## Well-formedness -/

/-- 70 R236: a load with a byte past 0xFFF is refused; one that ends at 0xFFF is not. -/
theorem test_wf_load_past_the_end : LoaderCommand.wf (.loadBytes 0xFFF [1, 2]) = false := by decide

theorem test_wf_load_up_to_the_end : LoaderCommand.wf (.loadBytes 0xFFE [1, 2]) = true := by decide

theorem test_load_past_the_end_is_refused :
    launch [.setReg 0 5, .loadBytes 4096 [1]] = .refused (.loadOutsideMemory 4096 1) := rfl

/-! ## Decoding of words written out bit by bit (30 R94, R100) -/

theorem test_decode_halt : decodeWord 0b0000000000000000 = .ok .halt := by decide

theorem test_decode_cls : decodeWord 0b0000000011100000 = .ok .cls := by decide

theorem test_decode_ret : decodeWord 0b0000000011101110 = .ok .ret := by decide

theorem test_decode_jmp : decodeWord 0b0001101010111100 = .ok (.jmp 0xABC) := by decide

theorem test_decode_call : decodeWord 0b0010000100000000 = .ok (.call 0x100) := by decide

theorem test_decode_seImm : decodeWord 0b0011101001111111 = .ok (.seImm 10 0x7F) := by decide

theorem test_decode_sneImm : decodeWord 0b0100000000000101 = .ok (.sneImm 0 0x05) := by decide

theorem test_decode_seReg : decodeWord 0b0101000100110000 = .ok (.seReg 1 3) := by decide

theorem test_decode_ldImm : decodeWord 0b0110000111110000 = .ok (.ldImm 1 0xF0) := by decide

theorem test_decode_addImm : decodeWord 0b0111001100000101 = .ok (.addImm 3 0x05) := by decide

theorem test_decode_ldReg : decodeWord 0b1000101010110000 = .ok (.ldReg 10 11) := by decide

theorem test_decode_orReg : decodeWord 0b1000101010110001 = .ok (.orReg 10 11) := by decide

theorem test_decode_andReg : decodeWord 0b1000101010110010 = .ok (.andReg 10 11) := by decide

theorem test_decode_xorReg : decodeWord 0b1000101010110011 = .ok (.xorReg 10 11) := by decide

theorem test_decode_addReg : decodeWord 0b1000101010110100 = .ok (.addReg 10 11) := by decide

/-- Unhandled words of 95 section 2.1 and 2.7. -/
theorem test_decode_unhandled :
    ([0x00E1, 0x0123, 0x5131, 0x8AB5, 0x8ABE, 0x9000, 0xA123, 0xFFFF].map dispatch).all
      Option.isNone = true := by decide

/-- Fewer than two bytes are refused by name; bytes after an instruction are left (30 R90). -/
theorem test_decode_bytes :
    decode [0x21] = .error .truncated ∧ decode [0x21, 0x00, 0x7F] = .ok (.call 0x100, [0x7F]) := by
  decide

theorem test_decodeTableWord :
    decodeTableWord 16 0x2100 = some (.call 0x100) ∧ decodeTableWord 16 0x5131 = none := by decide

/-- The masks and patterns of the opcode map are those of spec/opcode_table.json. -/
theorem test_opcode_map_rows :
    opcodeMap.map (fun r => (r.pattern, r.mask)) =
      [(0x0000, 0xFFFF), (0x00E0, 0xFFFF), (0x00EE, 0xFFFF), (0x1000, 0xF000), (0x2000, 0xF000),
       (0x3000, 0xF000), (0x4000, 0xF000), (0x5000, 0xF00F), (0x6000, 0xF000), (0x7000, 0xF000),
       (0x8000, 0xF00F), (0x8001, 0xF00F), (0x8002, 0xF00F), (0x8003, 0xF00F), (0x8004, 0xF00F)] := by
  decide

/-! ## One step, with the results of 95 sections 2.2 to 2.7 -/

/-- 95 S9: the byte at the lower address is the high one. -/
theorem test_fetch_big_endian :
    fetchWord { State.reset with mem := [(0, 0x21)] } = 0x2100 := by decide

theorem test_halt : runStateAfter (stateAt 0x004 0x0000) = some .halted ∧
    pcAfter (stateAt 0x004 0x0000) = some 0x006 := by decide

theorem test_halt_at_top : pcAfter (stateAt 0xFFE 0x0000) = some 0x1000 := by decide

theorem test_cls : step (stateAt 0x010 0x00E0) = .next { stateAt 0x010 0x00E0 with pc := 0x012 } := rfl

theorem test_ret : pcAfter (withStack 1 0x002 (stateAt 0x104 0x00EE)) = some 0x002 := by decide

theorem test_ret_underflow : runStateAfter (stateAt 0x000 0x00EE) =
    some (.faulted { kind := .stackUnderflow, pc := 0x002, opcode := some 0x00EE }) := by decide

theorem test_jmp : pcAfter (stateAt 0x006 0x1200) = some 0x200 := by decide

theorem test_call : pcAfter (stateAt 0x000 0x2100) = some 0x100 ∧
    (nextOf (step (stateAt 0x000 0x2100))).map (fun t => (stackEntry 0 t, t.sp.val)) =
      some (0x002, 1) := by decide

theorem test_call_overflow : runStateAfter (withStack 16 0x002 (stateAt 0x040 0x2100)) =
    some (.faulted { kind := .stackOverflow, pc := 0x042, opcode := some 0x2100 }) ∧
    pcAfter (withStack 16 0x002 (stateAt 0x040 0x2100)) = some 0x042 := by decide

theorem test_seImm : pcAfter (writeReg 2 0x2A (stateAt 0x010 0x322A)) = some 0x014 ∧
    pcAfter (writeReg 2 0x2B (stateAt 0x010 0x322A)) = some 0x012 := by decide

theorem test_seImm_at_top : pcAfter (stateAt 0xFFE 0x3000) = some 0x1002 := by decide

theorem test_sneImm : pcAfter (writeReg 0 0x05 (stateAt 0x020 0x4005)) = some 0x022 ∧
    pcAfter (writeReg 0 0x04 (stateAt 0x020 0x4005)) = some 0x024 := by decide

theorem test_seReg : pcAfter (writeReg 1 0x10 (writeReg 3 0x10 (stateAt 0x000 0x5130))) = some 0x004 ∧
    pcAfter (writeReg 1 0x10 (writeReg 3 0x11 (stateAt 0x000 0x5130))) = some 0x002 := by decide

theorem test_ldImm : regAfter 1 (stateAt 0x000 0x61F0) = some 0xF0 := by decide

theorem test_ldImm_flag_register : regAfter 15 (writeReg 15 0x01 (stateAt 0x000 0x6FFF)) = some 0xFF := by decide

theorem test_addImm_wraps : regAfter 3 (writeReg 3 0xFE (stateAt 0x000 0x7305)) = some 0x03 ∧
    regAfter 15 (writeReg 3 0xFE (stateAt 0x000 0x7305)) = some 0x00 := by decide

theorem test_addImm_keeps_flag : regAfter 15 (writeReg 15 0x01 (stateAt 0x000 0x7300)) = some 0x01 := by decide

theorem test_ldReg : regAfter 3 (writeReg 1 0xF0 (stateAt 0x000 0x8310)) = some 0xF0 := by decide

theorem test_orReg : regAfter 3 (writeReg 3 0xF0 (writeReg 2 0x3C (stateAt 0x000 0x8321))) = some 0xFC := by decide

theorem test_andReg : regAfter 4 (writeReg 4 0xF0 (writeReg 2 0x3C (stateAt 0x000 0x8422))) = some 0x30 := by decide

theorem test_xorReg : regAfter 5 (writeReg 5 0xF0 (writeReg 2 0x3C (stateAt 0x000 0x8523))) = some 0xCC := by decide

theorem test_xorReg_same : regAfter 15 (writeReg 15 0x07 (writeReg 2 0x5A (stateAt 0x000 0x8223))) = some 0x07 := by decide

/-- The old flag is read, then the new carry written. -/
theorem test_addReg_reads_old_flag :
    regAfter 1 (writeReg 1 0xFF (writeReg 15 0x01 (stateAt 0x000 0x81F4))) = some 0x00 ∧
    regAfter 15 (writeReg 1 0xFF (writeReg 15 0x01 (stateAt 0x000 0x81F4))) = some 0x01 := by decide

/-- 45 R185: with `X = 15` the carry is what remains. -/
theorem test_addReg_into_flag :
    regAfter 15 (writeReg 15 0xF0 (writeReg 1 0x20 (stateAt 0x000 0x8F14))) = some 0x01 ∧
    regAfter 15 (writeReg 15 0x10 (writeReg 1 0x20 (stateAt 0x000 0x8F14))) = some 0x00 := by decide

theorem test_unhandled : runStateAfter (writeReg 10 0x07 (stateAt 0x002 0x8AB5)) =
    some (.faulted { kind := .unhandledOpcode, pc := 0x004, opcode := some 0x8AB5 }) ∧
    regAfter 10 (writeReg 10 0x07 (stateAt 0x002 0x8AB5)) = some 0x07 := by decide

theorem test_fetch_guards :
    runStateAfter (stateAt 0x003 0x0000) = some (.faulted { kind := .pcMisaligned, pc := 0x003, opcode := none }) ∧
    runStateAfter (stateAt 0xFFF 0x0000) = some (.faulted { kind := .pcOutOfRange, pc := 0xFFF, opcode := none }) ∧
    runStateAfter (stateAt 0x1000 0x0000) = some (.faulted { kind := .pcOutOfRange, pc := 0x1000, opcode := none }) := by
  decide

/-- With `ODD_FETCH = fetch` an odd pc is fetched (95 section 2.3). -/
theorem test_odd_fetch_alternative :
    (nextOf (loopStep .fetch (stateAt 0x123 0x0000))).map (fun t => (t.runState, t.pc)) =
      some (.halted, 0x125) := by decide

theorem test_stopped_machine : step { State.reset with runState := .halted } = .fault .runHalted := rfl

/-- 95 section 2.3: JMP to itself under a step limit is `Stopped`; 95 P7 ends in a fault with code 2. -/
theorem test_host_run :
    (hostRun .fault 3 (stateAt 0x000 0x1000)).1 = .stopped ∧
    statusCode (hostRun .fault 3 (stateAt 0x000 0x00EE)).2 = 2 := by decide

theorem test_withFetchWord : State.reset.withFetchWord 16 0x61F0 = stateAt 0x000 0x61F0 := by decide

theorem test_reset_memory_canonical : Memory.wf State.reset.mem = true := rfl

/-- Writing the value an unlisted address reads as removes the entry. -/
theorem test_memory_write_canonical :
    Memory.write (Memory.write (Memory.write [] 5 1) 2 7) 5 0 = [(2, 7)] := by decide

/-! ## Witnesses: states that meet the hypotheses of the statements -/

/-- A machine right after the CALL at 0x000: one live entry. -/
def calledState : State := { withStack 0 0 (stateAt 0x100 0x00EE) with
  mem := [(0, 0x21), (0x101, 0xEE)], sp := 1, stack := (Vector.replicate 16 0).set 0 0x002 }

theorem witness_fetchable_first_and_last :
    Fetchable .fault (stateAt 0x000 0x6105) ∧ Fetchable .fault (stateAt 0xFFE 0x6105) ∧
    Fetchable .fetch (stateAt 0xFFD 0x6105) := ⟨⟨rfl, by decide, by decide⟩, ⟨rfl, by decide, by decide⟩, ⟨rfl, by decide, by decide⟩⟩

theorem witness_StepRunsTheDecodedInstruction :
    Fetchable .fault (stateAt 0xFFE 0x6105) ∧ decodeWord (fetchWord (stateAt 0xFFE 0x6105)) = .ok (.ldImm 1 5) :=
  ⟨⟨rfl, by decide, by decide⟩, by decide⟩

theorem witness_DecodingAnEncodedInstruction : Instr.wf (.addReg 15 15) = true := rfl

theorem witness_EncodingADecodedWord : decodeWord 0x8FF4 = .ok (.addReg 15 15) := by decide

theorem witness_PlacedInstruction :
    Fetchable .fault (stateAt 0xFFE 0xFFFF) ∧ Memory.wf (stateAt 0xFFE 0xFFFF).mem = true :=
  ⟨⟨rfl, by decide, by decide⟩, by decide⟩

theorem witness_FetchBeyondMemory :
    (stateAt 0xFFF 0).runState = .running ∧ 4094 < (stateAt 0xFFF 0).pc.toNat ∧
    4094 < (stateAt 0x1FFF 0).pc.toNat := by decide

theorem witness_OddFetch :
    (stateAt 0xFFD 0).runState = .running ∧ (stateAt 0xFFD 0).pc.toNat ≤ 4094 ∧
    (stateAt 0xFFD 0).pc.toNat % 2 = 1 ∧ (stateAt 0xFFE 0).pc.toNat ≤ 4094 := by decide

theorem witness_UnhandledWord :
    Fetchable .fault (stateAt 0xFFE 0xFFFF) ∧
    opcodeMap.all (fun r => !r.selects (fetchWord (stateAt 0xFFE 0xFFFF))) = true :=
  ⟨⟨rfl, by decide, by decide⟩, by decide⟩

theorem witness_UnassignedClasses :
    (Fetchable .fault (stateAt 0x000 0x9000) ∧ 9 ≤ (fetchWord (stateAt 0x000 0x9000)).toNat / 4096) ∧
    (Fetchable .fault (stateAt 0x000 0x8005) ∧ (fetchWord (stateAt 0x000 0x8005)).toNat / 4096 = 8 ∧
      5 ≤ (fetchWord (stateAt 0x000 0x8005)).toNat % 16) :=
  ⟨⟨⟨rfl, by decide, by decide⟩, by decide⟩, ⟨rfl, by decide, by decide⟩, by decide, by decide⟩

theorem witness_StoppedMachine :
    { State.reset with runState := .halted }.runState = .halted ∧
    (raiseFault .stackOverflow (some 0x2000) State.reset).runState =
      .faulted { kind := .stackOverflow, pc := 0, opcode := some 0x2000 } := ⟨rfl, rfl⟩

theorem witness_running : State.reset.runState = .running := rfl

theorem witness_RetClauses :
    (withStack 1 2 State.reset).sp.val = (0 : Fin Config.stackDepth).val + 1 ∧
    (withStack 16 2 State.reset).sp.val = (15 : Fin Config.stackDepth).val + 1 ∧
    State.reset.sp.val = 0 := by decide

theorem witness_CallClauses :
    (withStack 15 2 State.reset).sp.val < 16 ∧ (withStack 16 2 State.reset).sp.val = 16 := by decide

theorem witness_SkipClauses :
    (readReg 2 (stateAt 0x1000 0) = 0 ∧ (stateAt 0x1000 0).pc.toNat ≤ 4096) ∧
    (readReg 2 (stateAt 0x1000 0) ≠ 1 ∧ (stateAt 0x1000 0).pc.toNat ≤ 4096) := by decide

theorem witness_SeRegisterClauses :
    (readReg 4 State.reset = readReg 4 State.reset ∧ State.reset.pc.toNat ≤ 4096) ∧
    readReg 4 (writeReg 4 1 State.reset) ≠ readReg 5 (writeReg 4 1 State.reset) := by decide

/-- The three skips, and another memory with the same word at the pc and another one after it. -/
theorem witness_SkipsExamineNothing :
    Fetchable .fault (stateAt 0x000 0x3000) ∧
    decodeWord (fetchWord (stateAt 0x000 0x3000)) = .ok (.seImm 0 0) ∧
    decodeWord (fetchWord (stateAt 0x000 0x4001)) = .ok (.sneImm 0 1) ∧
    decodeWord (fetchWord (stateAt 0x000 0x5120)) = .ok (.seReg 1 2) ∧
    wordAt [(0, 0x30), (2, 0xFF), (3, 0xFF)] 0 = fetchWord (stateAt 0x000 0x3000) :=
  ⟨⟨rfl, by decide, by decide⟩, by decide, by decide, by decide, by decide⟩

/-- A step that ends in each of the five faults. -/
theorem witness_FaultsArePrecise :
    (runStateAfter (withStack 16 2 (stateAt 0x000 0x2000))).isSome = true ∧
    [withStack 16 2 (stateAt 0x000 0x2000), stateAt 0x000 0x00EE, stateAt 0x000 0x9000, stateAt 0x1000 0,
      stateAt 0x001 0].map (fun s => (nextOf (step s)).map statusCode) =
      [some 1, some 2, some 3, some 4, some 5] := by decide

theorem witness_NoStepWritesMemory : step (stateAt 0x010 0x00E0) = .next { stateAt 0x010 0x00E0 with pc := 0x012 } := rfl

theorem witness_FetchIsTheOnlyMemoryRead :
    Memory.read [(0, 0x61), (1, 0xF0), (2, 0x77)] 0 = Memory.read (stateAt 0 0x61F0).mem 0 ∧
    Memory.read [(0, 0x61), (1, 0xF0), (2, 0x77)] 1 = Memory.read (stateAt 0 0x61F0).mem 1 := by decide

/-- Two machines that differ in the dead entry 5, and a step from the first. -/
theorem witness_DeadStackEntries :
    AgreeButDead State.reset { State.reset with stack := State.reset.stack.set 5 0x0AA } ∧
    Steps .fault 1 State.reset (haltRun (advance State.reset)) :=
  ⟨⟨rfl, rfl, rfl, rfl, rfl, fun _ hk => absurd hk (Nat.not_lt_zero _)⟩, _, rfl, rfl⟩

theorem witness_Lifo :
    (withStack 15 2 State.reset).sp.val < 16 ∧
    (withStack 14 2 State.reset).sp.val + [(2 : PC), 4].length ≤ 16 ∧
    16 < (withStack 15 2 State.reset).sp.val + [(2 : PC), 4].length := by decide

/-- CALL 0xFFE at 0xFFC with one free slot, RET at 0xFFE. -/
def callAtTop : State :=
  { withStack 15 2 State.reset with pc := 0xFFC, mem := [(0xFFC, 0x2F), (0xFFD, 0xFE), (0xFFF, 0xEE)] }

theorem witness_CallThenRet :
    Fetchable .fault callAtTop ∧ callAtTop.sp.val < 16 ∧ fetchWord callAtTop = encode (.call 0xFFE) ∧
    (0xFFE : Addr).toNat ≤ 4094 ∧ (0xFFE : Addr).toNat % 2 = 0 ∧
    wordAt callAtTop.mem (0xFFE : Addr).toNat = encode .ret :=
  ⟨⟨rfl, by decide, by decide⟩, by decide, by decide, by decide, by decide, by decide⟩

theorem witness_JmpToItself :
    Fetchable .fault (stateAt 0xFFE 0x1FFE) ∧ (0xFFE : Addr).toNat = (stateAt 0xFFE 0x1FFE).pc.toNat ∧
    fetchWord (stateAt 0xFFE 0x1FFE) = encode (.jmp 0xFFE) :=
  ⟨⟨rfl, by decide, by decide⟩, by decide, by decide⟩

/-- A machine with a live entry meets the invariant, and it steps. -/
theorem witness_Invariant :
    calledState.Inv ∧ step calledState = .next (setPc 0x002 { calledState with sp := 0 }) := by
  refine ⟨⟨by decide, by decide, ?_, fun h => ?_, ?_⟩, rfl⟩
  · unfold IsReturnAddress
    decide
  · cases h
  · intro r h
    cases h

theorem witness_Launch :
    launch [.loadBytes 0 [0x61, 0xF0], .setReg 15 7, .setEntry 0x1FFF] =
      .next { writeReg 15 7 (stateAt 0 0x61F0) with pc := 0x1FFF } := rfl

theorem witness_PcStaysAtMost4098 :
    (∀ k : Fin Config.stackDepth, (stackEntry k (withStack 16 4096 (stateAt 0xFFE 0x3000))).toNat ≤ 4096) ∧
    pcAfter (withStack 16 4096 (stateAt 0xFFE 0x3000)) = some 4098 := by decide

theorem witness_LoadBytes :
    Memory.wf State.reset.mem = true ∧ 4094 + [(1 : Byte), 2].length ≤ 4096 ∧
    [(1 : Byte), 2] ≠ [] ∧ 4096 < 4095 + [(1 : Byte), 2].length := by decide

theorem witness_LongerLimit : (hostRun .fault 1 State.reset).1 ≠ .stopped := by decide

/-- Two instances in turn (20 R87): LD V1,0x2A in one; JMP 0x004, then HALT (unwritten memory), in the other. -/
theorem test_instances_share_nothing :
    let t := runTurns .fault [1, 0, 1, 1] (#v[stateAt 0x000 0x612A, stateAt 0x000 0x1004] : Vector State 2)
    readReg 1 t[0] = 0x2A ∧ t[0].pc = 2 ∧ t[0].runState = .running ∧
    readReg 1 t[1] = 0x00 ∧ t[1].pc = 6 ∧ t[1].runState = .halted := by decide

end Sys2Proof.Tests
end

section
/-! PROOFS. The decoder and the loop, as every statement about a fetched word needs them. -/

namespace Sys2Proof

/-- A word that dispatches is the word of the instruction it dispatches to: every bit of it is in a field that `dispatch`
reads (30 R93). -/
theorem encode_of_dispatch {w : Word} {i : Instr} (h : dispatch w = some i) : encode i = w := by
  have hw := w.isLt
  have hC := fields_C_toNat w
  have hN := fields_N_toNat w
  have nnn (c : Nibble) (hc : (fields w).C.toNat = c.toNat) : encodeNNN c (fields w).NNN = w := by
    apply BitVec.eq_of_toNat_eq
    rw [encodeNNN_toNat, fields_NNN_toNat]
    omega
  have xkk (c : Nibble) (hc : (fields w).C.toNat = c.toNat) : encodeXKK c (fields w).X (fields w).KK = w := by
    apply BitVec.eq_of_toNat_eq
    rw [encodeXKK_toNat, fields_X_toNat, fields_KK_toNat]
    omega
  have xyn (c n : Nibble) (hc : (fields w).C.toNat = c.toNat) (hn : (fields w).N.toNat = n.toNat) :
      encodeXYN c (fields w).X (fields w).Y n = w := by
    apply BitVec.eq_of_toNat_eq
    rw [encodeXYN_toNat, fields_X_toNat, fields_Y_toNat]
    omega
  simp only [dispatch] at h
  split at h
  next =>
    unfold dispatchClass0 at h
    split_ifs at h with halt cls ret <;> cases h
    exacts [halt.symm, cls.symm, ret.symm]
  next hc => cases h; exact nnn 1 hc
  next hc => cases h; exact nnn 2 hc
  next hc => cases h; exact xkk 3 hc
  next hc => cases h; exact xkk 4 hc
  next hc =>
    split_ifs at h with hn
    cases h
    exact xyn 5 0 hc (by rw [hn])
  next hc => cases h; exact xkk 6 hc
  next hc => cases h; exact xkk 7 hc
  next hc =>
    unfold dispatchClass8 at h
    split at h
    next hn => cases h; exact xyn 8 0 hc hn
    next hn => cases h; exact xyn 8 1 hc hn
    next hn => cases h; exact xyn 8 2 hc hn
    next hn => cases h; exact xyn 8 3 hc hn
    next hn => cases h; exact xyn 8 4 hc hn
    next => cases h
  next => cases h

/-- The unhandled sub-opcodes of class 8 (30 R106). -/
theorem dispatchClass8_eq_none (f : Fields) : dispatchClass8 f = none ↔ 4 < f.N.toNat := by
  unfold dispatchClass8
  split
  case h_6 => simp only [imp_false, true_iff] at *; omega
  all_goals simp only [reduceCtorEq, false_iff]; omega

/-- A word of class 6 or 7 always dispatches, one of class 8 does up to `N = 4` (30 R98, R103). -/
theorem class_of_dispatch_none {w : Word} (h : dispatch w = none) :
    w.toNat / 4096 ≠ 6 ∧ w.toNat / 4096 ≠ 7 ∧ (w.toNat / 4096 = 8 → 4 < w.toNat % 16) := by
  rw [← fields_C_toNat, ← fields_N_toNat]
  refine ⟨fun hc => ?_, fun hc => ?_, fun hc => ?_⟩
  · simp [dispatch, hc] at h
  · simp [dispatch, hc] at h
  · simpa [dispatch, hc, dispatchClass8_eq_none] using h

/-- The four numbers of a word of format `XYN` (30 R92). -/
theorem encodeXYN_numbers (c : Nibble) (x y : RegIdx) (n : Nibble) :
    (encodeXYN c x y n).toNat / 4096 = c.toNat ∧ (encodeXYN c x y n).toNat / 256 % 16 = x.toNat ∧
      (encodeXYN c x y n).toNat / 16 % 16 = y.toNat ∧ (encodeXYN c x y n).toNat % 16 = n.toNat := by
  obtain ⟨hC, hX, hY, hN⟩ := fields_encodeXYN c x y n
  rw [← fields_C_toNat, ← fields_X_toNat, ← fields_Y_toNat, ← fields_N_toNat, hC, hX, hY, hN]
  exact ⟨rfl, rfl, rfl, rfl⟩

/-- The three numbers of a word of format `XKK` (30 R92). -/
theorem encodeXKK_numbers (c : Nibble) (x : RegIdx) (kk : Byte) :
    (encodeXKK c x kk).toNat / 4096 = c.toNat ∧ (encodeXKK c x kk).toNat / 256 % 16 = x.toNat ∧
      (encodeXKK c x kk).toNat % 256 = kk.toNat := by
  obtain ⟨hC, hX, hKK⟩ := fields_encodeXKK c x kk
  rw [← fields_C_toNat, ← fields_X_toNat, ← fields_KK_toNat, hC, hX, hKK]
  exact ⟨rfl, rfl, rfl⟩

/-- The class of a word of format `NNN` (30 R92). -/
theorem encodeNNN_class (c : Nibble) (nnn : Addr) : (encodeNNN c nnn).toNat / 4096 = c.toNat := by
  rw [← fields_C_toNat, (fields_encodeNNN c nnn).1]

end Sys2Proof

namespace Sys2Proof.Machine

/-- A running machine whose pc the guard refuses takes the guard's fault, with no opcode (40 R122, R123). -/
theorem loopStep_of_guard_some {odd : OddFetch} {s : State} {k : FaultKind} (hr : s.runState = .running)
    (hg : fetchGuard odd s.pc = some k) : loopStep odd s = .next (raiseFault k none s) := by
  simp [loopStep, hr, hg]

/-- A running machine whose pc the guard passes executes the fetched word on the advanced state (40 R121). -/
theorem loopStep_of_guard_none {odd : OddFetch} {s : State} (hr : s.runState = .running)
    (hg : fetchGuard odd s.pc = none) : loopStep odd s = executeFetched (fetchWord s) (advance s) := by
  simp [loopStep, hr, hg]

theorem loopStep_of_fetchable {odd : OddFetch} {s : State} (h : Fetchable odd s) :
    loopStep odd s = executeFetched (fetchWord s) (advance s) := by
  obtain ⟨hrun, hpc⟩ := h
  exact loopStep_of_guard_none hrun ((fetchGuard_none odd s.pc).2 hpc)

theorem executeFetched_of_dispatch_some {w : Word} {i : Instr} (h : dispatch w = some i) (s : State) :
    executeFetched w s = exec i s := by
  simp [executeFetched, decodeWord, h]

theorem executeFetched_of_dispatch_none {w : Word} (h : dispatch w = none) (s : State) :
    executeFetched w s = .next (raiseFault .unhandledOpcode (some w) s) := by
  simp [executeFetched, decodeWord, h]

end Sys2Proof.Machine
end

section
/-! PROOFS. O37: every register after every step. `regAfterWord` is read form by form, and `exec` is held to it
instruction by instruction. -/

namespace Sys2Proof.Machine

/-! ### Which registers a word leaves alone -/

/-- A word outside classes 6, 7 and 8 and an unhandled word of class 8 write no register. -/
theorem regAfterWord_of_no_write {w : Nat} (h6 : w / 4096 ≠ 6) (h7 : w / 4096 ≠ 7)
    (h8 : w / 4096 = 8 → 4 < w % 16) (v : Nat → Nat) (r : Nat) : regAfterWord w v r = v r := by
  by_cases hC : w / 4096 = 8
  · have hN := h8 hC
    simp only [regAfterWord, hC, hN.ne', Nat.reduceEqDiff, false_and, and_false, true_and, if_false]
    split_ifs with hX
    · split
      case h_6 => rfl
      all_goals omega
    · rfl
  · simp [regAfterWord, h6, h7, hC]

/-- A word writes no register but its `X`, and with the sum of class 8 the flag register (10 R33, 45 R184). -/
theorem regAfterWord_of_ne_X {w r : Nat} (hX : r ≠ w / 256 % 16) (hsum : w / 4096 = 8 → w % 16 ≠ 4)
    (v : Nat → Nat) : regAfterWord w v r = v r := by
  have hflag : ¬ (w / 4096 = 8 ∧ w % 16 = 4 ∧ r = 15) := fun c => hsum c.1 c.2.1
  simp [regAfterWord, hX, hflag]

/-! ### Machines whose registers follow a word -/

theorem regNumber_toNat (s : State) (r : RegIdx) : regNumber s r.toNat = (readReg r s).toNat := by
  simp [regNumber]

/-- Every register of `t` holds what the rules give for the word `w` on the registers of `s`. -/
def RegsFollowWord (w : Word) (s t : State) : Prop :=
  ∀ r : RegIdx, (readReg r t).toNat = regAfterWord w.toNat (regNumber s) r.toNat

theorem RegsFollowWord.regNumber_eq {w : Word} {s t : State} (h : RegsFollowWord w s t) {n : Nat} (hn : n < 16) :
    regNumber t n = regAfterWord w.toNat (regNumber s) n := by
  have e : (BitVec.ofNat 4 n).toNat = n := Nat.mod_eq_of_lt hn
  have := h (BitVec.ofNat 4 n)
  rwa [e] at this

/-- A word that writes no register, and a step that keeps the registers. -/
theorem regsFollowWord_of_same_regs {w : Word} {s t : State} (hregs : t.regs = s.regs)
    (h6 : w.toNat / 4096 ≠ 6) (h7 : w.toNat / 4096 ≠ 7) (h8 : w.toNat / 4096 = 8 → 4 < w.toNat % 16) :
    RegsFollowWord w s t := by
  intro r
  rw [regAfterWord_of_no_write h6 h7 h8, regNumber_toNat]
  simp [readReg, hregs]

/-- System, control-transfer and skip words are those of the classes 0 to 5; none writes a register. -/
theorem regsFollowWord_of_class_lt_six {w : Word} {s t : State} (hregs : t.regs = s.regs)
    (hC : w.toNat / 4096 < 6) : RegsFollowWord w s t :=
  regsFollowWord_of_same_regs hregs (by omega) (by omega) (by omega)

/-- A word that writes its register `X` only, and a step that writes the right value there. -/
theorem regsFollowWord_writeReg {w : Word} {s : State} {x : RegIdx} {v : Byte} (hX : w.toNat / 256 % 16 = x.toNat)
    (hsum : w.toNat / 4096 = 8 → w.toNat % 16 ≠ 4)
    (hv : v.toNat = regAfterWord w.toNat (regNumber s) x.toNat) : RegsFollowWord w s (writeReg x v s) := by
  intro r
  by_cases hr : r = x
  · rw [hr, readReg_writeReg_same, hv]
  · have hne : r.toNat ≠ w.toNat / 256 % 16 := by
      rw [hX]
      exact fun e => hr (BitVec.eq_of_toNat_eq e)
    rw [readReg_writeReg_other _ _ _ _ hr, regAfterWord_of_ne_X hne hsum, regNumber_toNat]

/-- The register-register forms but the sum: their one effect is a write of `X` (45 R180 to R183, R188). -/
theorem regsFollowWord_writeReg_alu {s : State} {n : Nibble} {x y : RegIdx} {v : Byte} (hn : n.toNat ≠ 4)
    (hv : v.toNat = regAfterWord (encodeXYN 8 x y n).toNat (regNumber s) x.toNat) :
    RegsFollowWord (encodeXYN 8 x y n) s (writeReg x v s) := by
  obtain ⟨-, hX, -, hN⟩ := encodeXYN_numbers 8 x y n
  exact regsFollowWord_writeReg hX (fun _ => by rwa [hN]) hv

/-! ### The instructions -/

theorem execRet_keeps_regs (s : State) : ∃ t, execRet s = .next t ∧ t.regs = s.regs := by
  rcases pop_cases s with ⟨-, hpop⟩ | ⟨_, t, -, hpop, -, -, hregs, -⟩
  · simp only [execRet, hpop]
    exact ⟨_, rfl, rfl⟩
  · simp only [execRet, hpop]
    exact ⟨_, rfl, hregs⟩

theorem execCall_keeps_regs (nnn : Addr) (s : State) : ∃ t, execCall nnn s = .next t ∧ t.regs = s.regs := by
  rcases push_cases s.pc s with ⟨-, hpush⟩ | ⟨_, t, hpush, -, -, hregs, -⟩
  · simp only [execCall, hpush]
    exact ⟨_, rfl, rfl⟩
  · simp only [execCall, hpush]
    exact ⟨_, rfl, hregs⟩

theorem skipIf_regs (c : Bool) (s : State) : (skipIf c s).regs = s.regs := by
  rw [skipIf_eq, setPc_regs]

/-- ADD Vx,Vy writes the sum and then the flag, which is what register 15 keeps (45 R184, R185; 92 D12). -/
theorem execAddReg_regsFollowWord (x y : RegIdx) (s : State) :
    ∃ t, execAddReg x y s = .next t ∧ RegsFollowWord (encode (.addReg x y)) s t := by
  obtain ⟨hC, hX, hY, hN⟩ := encodeXYN_numbers 8#4 x y 4#4
  refine ⟨_, rfl, fun r => ?_⟩
  rw [readReg_writeFlag, readReg_writeReg]
  by_cases hflag : r = Config.flagReg
  · rw [if_pos hflag, carryOut_toNat, hflag]
    simp [regAfterWord, encode, hC, hX, hY, hN, regNumber_toNat, regOperand]
  · have hflagN : r.toNat ≠ 15 := fun e => hflag (BitVec.eq_of_toNat_eq e)
    rw [if_neg hflag]
    by_cases hx : r = x
    · subst hx
      rw [if_pos rfl, sumByte_toNat]
      simp [regAfterWord, encode, hC, hX, hY, hN, hflagN, regNumber_toNat, regOperand]
    · have hxN : r.toNat ≠ x.toNat := fun e => hx (BitVec.eq_of_toNat_eq e)
      simp [regAfterWord, encode, hX, hx, hxN, hflagN, regNumber_toNat]

/-- Every instruction answers a next state whose registers follow its word (44, 45). -/
theorem exec_regsFollowWord (i : Instr) (s : State) :
    ∃ t, exec i s = .next t ∧ RegsFollowWord (encode i) s t := by
  cases i with
  | halt => exact ⟨_, rfl, regsFollowWord_of_class_lt_six rfl (by decide)⟩
  | cls => exact ⟨_, rfl, regsFollowWord_of_class_lt_six rfl (by decide)⟩
  | ret =>
    obtain ⟨t, ht, hregs⟩ := execRet_keeps_regs s
    exact ⟨t, ht, regsFollowWord_of_class_lt_six hregs (by decide)⟩
  | jmp nnn =>
    have hC := encodeNNN_class 1#4 nnn
    exact ⟨_, rfl, regsFollowWord_of_class_lt_six rfl (by simp [encode, hC])⟩
  | call nnn =>
    obtain ⟨t, ht, hregs⟩ := execCall_keeps_regs nnn s
    have hC := encodeNNN_class 2#4 nnn
    exact ⟨t, ht, regsFollowWord_of_class_lt_six hregs (by simp [encode, hC])⟩
  | seImm x kk =>
    obtain ⟨hC, -⟩ := encodeXKK_numbers 3#4 x kk
    exact ⟨_, rfl, regsFollowWord_of_class_lt_six (skipIf_regs _ s) (by simp [encode, hC])⟩
  | sneImm x kk =>
    obtain ⟨hC, -⟩ := encodeXKK_numbers 4#4 x kk
    exact ⟨_, rfl, regsFollowWord_of_class_lt_six (skipIf_regs _ s) (by simp [encode, hC])⟩
  | seReg x y =>
    obtain ⟨hC, -⟩ := encodeXYN_numbers 5#4 x y 0#4
    exact ⟨_, rfl, regsFollowWord_of_class_lt_six (skipIf_regs _ s) (by simp [encode, hC])⟩
  | ldImm x kk =>
    obtain ⟨hC, hX, hKK⟩ := encodeXKK_numbers 6#4 x kk
    refine ⟨_, rfl, regsFollowWord_writeReg hX ?_ ?_⟩ <;>
      simp [encode, regAfterWord, hC, hX, hKK, immOperand]
  | addImm x kk =>
    obtain ⟨hC, hX, hKK⟩ := encodeXKK_numbers 7#4 x kk
    refine ⟨_, rfl, regsFollowWord_writeReg hX ?_ ?_⟩ <;>
      simp [encode, regAfterWord, hC, hX, hKK, immOperand, regOperand, regNumber_toNat]
  | ldReg x y =>
    obtain ⟨hC, hX, hY, hN⟩ := encodeXYN_numbers 8#4 x y 0#4
    refine ⟨_, rfl, regsFollowWord_writeReg_alu (by decide) ?_⟩
    simp [regAfterWord, hC, hX, hY, hN, regOperand, regNumber_toNat]
  | orReg x y =>
    obtain ⟨hC, hX, hY, hN⟩ := encodeXYN_numbers 8#4 x y 1#4
    refine ⟨_, rfl, regsFollowWord_writeReg_alu (by decide) ?_⟩
    simp [regAfterWord, hC, hX, hY, hN, regOperand, regNumber_toNat]
  | andReg x y =>
    obtain ⟨hC, hX, hY, hN⟩ := encodeXYN_numbers 8#4 x y 2#4
    refine ⟨_, rfl, regsFollowWord_writeReg_alu (by decide) ?_⟩
    simp [regAfterWord, hC, hX, hY, hN, regOperand, regNumber_toNat]
  | xorReg x y =>
    obtain ⟨hC, hX, hY, hN⟩ := encodeXYN_numbers 8#4 x y 3#4
    refine ⟨_, rfl, regsFollowWord_writeReg_alu (by decide) ?_⟩
    simp [regAfterWord, hC, hX, hY, hN, regOperand, regNumber_toNat]
  | addReg x y => exact execAddReg_regsFollowWord x y s

/-- The same for every word, those included that select no row: these change no register (40 R129). -/
theorem executeFetched_regsFollowWord (w : Word) (s : State) :
    ∃ t, executeFetched w s = .next t ∧ RegsFollowWord w s t := by
  cases hd : dispatch w with
  | none =>
    obtain ⟨h6, h7, h8⟩ := class_of_dispatch_none hd
    exact ⟨_, executeFetched_of_dispatch_none hd s, regsFollowWord_of_same_regs rfl h6 h7 h8⟩
  | some i =>
    rw [executeFetched_of_dispatch_some hd, ← encode_of_dispatch hd]
    exact exec_regsFollowWord i s

/-- Settles O37: the fetched word runs on the advanced state, whose registers are those before the step. -/
theorem registersAfterEveryStep : Obligations.RegistersAfterEveryStep := by
  intro odd s hs
  obtain ⟨t, ht, hfollow⟩ := executeFetched_regsFollowWord (fetchWord s) (advance s)
  exact ⟨t, (loopStep_of_fetchable hs).trans ht, fun n hn => hfollow.regNumber_eq hn⟩

end Sys2Proof.Machine
end

section
/-! PROOFS. O43 and O42: what the call stack answers, and that dead entries are never observed. `AgreeButDead` is kept
by every state operation, hence by every instruction, by every step and by every run. -/

namespace Sys2Proof.Machine

/-! ### Pop after push -/

/-- Settles O43: `push` writes the entry that the next `pop` reads, and that entry is dead before and after. -/
theorem popAfterPushAnswersThePushedValue : Obligations.PopAfterPushAnswersThePushedValue := by
  intro v s hroom
  rcases push_cases v s with ⟨hfull, -⟩ | ⟨hlt, t, hpush, hspt, hentry, hregs, hpc, hmem, hrun⟩
  · exact absurd hfull (Nat.ne_of_lt hroom)
  rcases pop_cases t with ⟨hempty, -⟩ | ⟨hlt', u, -, hpop, hspu, hstack, hregs', hpc', hmem', hrun'⟩
  · omega
  have htop : (⟨t.sp.val - 1, hlt'⟩ : Fin Config.stackDepth) = ⟨s.sp.val, hlt⟩ := Fin.ext (by simp [hspt])
  rw [htop, hentry, if_pos rfl] at hpop
  refine ⟨t, u, hpush, hpop, hregs'.trans hregs, hpc'.trans hpc, Fin.ext (by omega), hmem'.trans hmem,
    hrun'.trans hrun, fun k hk => ?_⟩
  have hne : k ≠ ⟨s.sp.val, hlt⟩ := fun e => by simp [e] at hk
  calc stackEntry k u = stackEntry k t := by simp only [stackEntry, hstack]
    _ = stackEntry k s := by rw [hentry, if_neg hne]

/-! ### What machines that agree but in dead entries have in common -/

theorem AgreeButDead.pc_eq {s s' : State} (h : AgreeButDead s s') : s'.pc = s.pc := by
  obtain ⟨-, hpc, -⟩ := h
  exact hpc

theorem AgreeButDead.runState_eq {s s' : State} (h : AgreeButDead s s') : s'.runState = s.runState := by
  obtain ⟨-, -, -, -, hrun, -⟩ := h
  exact hrun

theorem AgreeButDead.regOperand_eq {s s' : State} (h : AgreeButDead s s') (x : RegIdx) :
    regOperand x s' = regOperand x s := by
  obtain ⟨hregs, -⟩ := h
  simp only [regOperand, readReg, hregs]

theorem AgreeButDead.fetchWord_eq {s s' : State} (h : AgreeButDead s s') : fetchWord s' = fetchWord s := by
  obtain ⟨-, hpc, -, hmem, -⟩ := h
  simp only [fetchWord, hpc, hmem]

/-! ### The state operations keep the agreement -/

theorem AgreeButDead.writeReg {s s' : State} (h : AgreeButDead s s') (x : RegIdx) (v : Byte) :
    AgreeButDead (writeReg x v s) (writeReg x v s') := by
  obtain ⟨hregs, hrest⟩ := h
  exact ⟨by simp only [Machine.writeReg, hregs], hrest⟩

theorem AgreeButDead.setPc {s s' : State} (h : AgreeButDead s s') (p : PC) :
    AgreeButDead (setPc p s) (setPc p s') := by
  obtain ⟨hregs, -, hrest⟩ := h
  exact ⟨hregs, rfl, hrest⟩

theorem AgreeButDead.skipIf {s s' : State} (h : AgreeButDead s s') (c : Bool) :
    AgreeButDead (skipIf c s) (skipIf c s') := by
  rw [skipIf_eq, skipIf_eq, h.pc_eq]
  exact h.setPc _

theorem AgreeButDead.advance {s s' : State} (h : AgreeButDead s s') : AgreeButDead (advance s) (advance s') :=
  h.skipIf true

theorem AgreeButDead.haltRun {s s' : State} (h : AgreeButDead s s') : AgreeButDead (haltRun s) (haltRun s') := by
  obtain ⟨hregs, hpc, hsp, hmem, -, hlive⟩ := h
  exact ⟨hregs, hpc, hsp, hmem, rfl, hlive⟩

theorem AgreeButDead.raiseFault {s s' : State} (h : AgreeButDead s s') (k : FaultKind) (o : Option Word) :
    AgreeButDead (raiseFault k o s) (raiseFault k o s') := by
  obtain ⟨hregs, hpc, hsp, hmem, -, hlive⟩ := h
  exact ⟨hregs, hpc, hsp, hmem, by simp only [raiseFault_runState, hpc], hlive⟩

/-- Both pushes fail, or both succeed and write the same value to the entry that becomes live. -/
theorem AgreeButDead.push {s s' : State} (h : AgreeButDead s s') (v : PC) :
    (push v s = none ∧ push v s' = none) ∨
      ∃ t t', push v s = some t ∧ push v s' = some t' ∧ AgreeButDead t t' := by
  obtain ⟨hregs, hpc, hsp, hmem, hrun, hlive⟩ := h
  rcases push_cases v s with ⟨hfull, hp⟩ | ⟨hlt, t, hp, hspt, hentry, hregst, hpct, hmemt, hrunt⟩ <;>
    rcases push_cases v s' with ⟨hfull', hp'⟩ | ⟨hlt', t', hp', hspt', hentry', hregst', hpct', hmemt', hrunt'⟩
  · exact .inl ⟨hp, hp'⟩
  · rw [hsp] at hlt'
    omega
  · rw [hsp] at hfull'
    omega
  · refine .inr ⟨t, t', hp, hp', by rw [hregst, hregst', hregs], by rw [hpct, hpct', hpc],
      Fin.ext (by rw [hspt, hspt', hsp]), by rw [hmemt, hmemt', hmem], by rw [hrunt, hrunt', hrun], fun k hk => ?_⟩
    have htop : (⟨s'.sp.val, hlt'⟩ : Fin Config.stackDepth) = ⟨s.sp.val, hlt⟩ := Fin.ext (by simp only [hsp])
    rw [hentry, hentry', htop]
    split_ifs with hk'
    · rfl
    · exact hlive k (by have : k.val ≠ s.sp.val := fun e => hk' (Fin.ext e); omega)

/-- Both pops fail, or both succeed and answer the same value, since the entry they read is live. -/
theorem AgreeButDead.pop {s s' : State} (h : AgreeButDead s s') :
    (pop s = none ∧ pop s' = none) ∨
      ∃ p t t', pop s = some (p, t) ∧ pop s' = some (p, t') ∧ AgreeButDead t t' := by
  obtain ⟨hregs, hpc, hsp, hmem, hrun, hlive⟩ := h
  rcases pop_cases s with ⟨hempty, hp⟩ | ⟨hlt, t, hpos, hp, hspt, hstackt, hregst, hpct, hmemt, hrunt⟩ <;>
    rcases pop_cases s' with ⟨hempty', hp'⟩ | ⟨hlt', t', hpos', hp', hspt', hstackt', hregst', hpct', hmemt', hrunt'⟩
  · exact .inl ⟨hp, hp'⟩
  · rw [hsp] at hpos'
    omega
  · rw [hsp] at hempty'
    omega
  · have htop : (⟨s'.sp.val - 1, hlt'⟩ : Fin Config.stackDepth) = ⟨s.sp.val - 1, hlt⟩ := Fin.ext (by simp only [hsp])
    rw [htop, hlive _ (Nat.sub_lt hpos Nat.one_pos)] at hp'
    refine .inr ⟨_, t, t', hp, hp', by rw [hregst, hregst', hregs], by rw [hpct, hpct', hpc],
      Fin.ext (by rw [hspt, hspt', hsp]), by rw [hmemt, hmemt', hmem], by rw [hrunt, hrunt', hrun], fun k hk => ?_⟩
    have := hlive k (by omega)
    simpa only [stackEntry, hstackt, hstackt'] using this

/-! ### Instructions, steps and runs keep the agreement -/

/-- Two outcomes are next states that agree but in dead entries. -/
def NextAgree (o o' : Host.Outcome State Fault Refusal) : Prop :=
  ∃ t t', o = .next t ∧ o' = .next t' ∧ AgreeButDead t t'

theorem AgreeButDead.nextAgree {t t' : State} (h : AgreeButDead t t') : NextAgree (.next t) (.next t') :=
  ⟨t, t', rfl, rfl, h⟩

theorem AgreeButDead.execRet {s s' : State} (h : AgreeButDead s s') : NextAgree (execRet s) (execRet s') := by
  rcases h.pop with ⟨hp, hp'⟩ | ⟨p, t, t', hp, hp', ht⟩
  · simp only [Machine.execRet, hp, hp']
    exact (h.raiseFault _ _).nextAgree
  · simp only [Machine.execRet, hp, hp']
    exact (ht.setPc p).nextAgree

theorem AgreeButDead.execCall {s s' : State} (h : AgreeButDead s s') (nnn : Addr) :
    NextAgree (execCall nnn s) (execCall nnn s') := by
  unfold Machine.execCall
  rw [h.pc_eq]
  rcases h.push s.pc with ⟨hp, hp'⟩ | ⟨t, t', hp, hp', ht⟩
  · simp only [hp, hp']
    exact (h.raiseFault _ _).nextAgree
  · simp only [hp, hp']
    exact (ht.setPc _).nextAgree

theorem AgreeButDead.execAddReg {s s' : State} (h : AgreeButDead s s') (x y : RegIdx) :
    NextAgree (execAddReg x y s) (execAddReg x y s') := by
  simp only [Machine.execAddReg, h.regOperand_eq]
  exact ((h.writeReg x _).writeReg Config.flagReg _).nextAgree

theorem AgreeButDead.exec {s s' : State} (h : AgreeButDead s s') (i : Instr) : NextAgree (exec i s) (exec i s') := by
  have write (x : RegIdx) {v v' : Byte} (hv : v' = v) :
      NextAgree (.next (Machine.writeReg x v s)) (.next (Machine.writeReg x v' s')) :=
    hv ▸ (h.writeReg x v).nextAgree
  have skip {c c' : Bool} (hc : c' = c) : NextAgree (.next (Machine.skipIf c s)) (.next (Machine.skipIf c' s')) :=
    hc ▸ (h.skipIf c).nextAgree
  cases i with
  | halt => exact h.haltRun.nextAgree
  | cls => exact h.nextAgree
  | ret => exact h.execRet
  | jmp nnn => exact (h.setPc _).nextAgree
  | call nnn => exact h.execCall nnn
  | seImm x kk => exact skip (by rw [h.regOperand_eq])
  | sneImm x kk => exact skip (by rw [h.regOperand_eq])
  | seReg x y => exact skip (by rw [h.regOperand_eq, h.regOperand_eq])
  | ldImm x kk => exact write x rfl
  | addImm x kk => exact write x (by rw [h.regOperand_eq])
  | ldReg x y => exact write x (h.regOperand_eq y)
  | orReg x y => exact write x (by rw [h.regOperand_eq, h.regOperand_eq])
  | andReg x y => exact write x (by rw [h.regOperand_eq, h.regOperand_eq])
  | xorReg x y => exact write x (by rw [h.regOperand_eq, h.regOperand_eq])
  | addReg x y => exact h.execAddReg x y

theorem AgreeButDead.executeFetched {s s' : State} (h : AgreeButDead s s') (w : Word) :
    NextAgree (executeFetched w s) (executeFetched w s') := by
  cases hd : dispatch w with
  | none =>
    rw [executeFetched_of_dispatch_none hd, executeFetched_of_dispatch_none hd]
    exact (h.raiseFault _ _).nextAgree
  | some i =>
    rw [executeFetched_of_dispatch_some hd, executeFetched_of_dispatch_some hd]
    exact h.exec i

/-- Guard, fetch and advance read only what the two machines share. -/
theorem AgreeButDead.loopStep_of_running {s s' : State} (h : AgreeButDead s s') (hr : s.runState = .running)
    (odd : OddFetch) : NextAgree (loopStep odd s) (loopStep odd s') := by
  have hr' : s'.runState = .running := h.runState_eq.trans hr
  cases hg : fetchGuard odd s.pc with
  | some k =>
    rw [loopStep_of_guard_some hr hg, loopStep_of_guard_some hr' (h.pc_eq ▸ hg)]
    exact (h.raiseFault k none).nextAgree
  | none =>
    rw [loopStep_of_guard_none hr hg, loopStep_of_guard_none hr' (h.pc_eq ▸ hg), h.fetchWord_eq]
    exact h.advance.executeFetched _

/-- A stopped machine takes no step (40 R132). -/
theorem running_of_loopStep_next {odd : OddFetch} {s t : State} (h : loopStep odd s = .next t) :
    s.runState = .running := by
  rcases loopStep_cases odd s with ⟨-, hstop⟩ | ⟨r, -, hstop⟩ | ⟨hrun, -⟩
  · simp [hstop] at h
  · simp [hstop] at h
  · exact hrun

theorem AgreeButDead.loopStep {odd : OddFetch} {s s' t : State} (h : AgreeButDead s s')
    (hstep : loopStep odd s = .next t) : ∃ t', loopStep odd s' = .next t' ∧ AgreeButDead t t' := by
  obtain ⟨u, t', hu, ht', hagree⟩ := h.loopStep_of_running (running_of_loopStep_next hstep) odd
  obtain rfl : u = t := by simpa [hu] using hstep
  exact ⟨t', ht', hagree⟩

/-- Settles O42, by induction on the number of steps. -/
theorem deadStackEntriesAreNeverObserved : Obligations.DeadStackEntriesAreNeverObserved := by
  intro odd n
  induction n with
  | zero =>
    intro s s' t h hrun
    obtain rfl : t = s := hrun
    exact ⟨s', rfl, h⟩
  | succ n ih =>
    intro s s' t h hrun
    obtain ⟨u, hstep, hrest⟩ := hrun
    obtain ⟨u', hstep', hu⟩ := h.loopStep hstep
    obtain ⟨t', hrest', ht⟩ := ih u u' t hu hrest
    exact ⟨t', ⟨u', hstep', hrest'⟩, ht⟩

end Sys2Proof.Machine
end

section
/-! PROOFS. O40: no step writes memory. Every instruction answers a next state with the memory it was given, and so does
every step of a running machine. -/

namespace Sys2Proof.Machine

theorem skipIf_mem (c : Bool) (s : State) : (skipIf c s).mem = s.mem := by
  rw [skipIf_eq, setPc_mem]

/-- CALL saves the pc on the call stack, which is no part of memory (10 R42). -/
theorem push_keeps_mem {v : PC} {s t : State} (h : push v s = some t) : t.mem = s.mem := by
  rcases push_cases v s with ⟨-, hnone⟩ | ⟨_, u, hsome, -, -, -, -, hmem, -⟩
  · simp [hnone] at h
  · obtain rfl : u = t := by simpa [hsome] using h
    exact hmem

theorem pop_keeps_mem {p : PC} {s t : State} (h : pop s = some (p, t)) : t.mem = s.mem := by
  rcases pop_cases s with ⟨-, hnone⟩ | ⟨_, u, -, hsome, -, -, -, -, hmem, -⟩
  · simp [hnone] at h
  · obtain ⟨-, rfl⟩ : _ ∧ u = t := by simpa [hsome] using h
    exact hmem

/-- No instruction has a store form (20 R80). -/
theorem exec_keeps_mem (i : Instr) (s : State) : ∃ t, exec i s = .next t ∧ t.mem = s.mem := by
  rcases exec_cases i s with ⟨-, he⟩ | ⟨-, he⟩ | ⟨x, v, he⟩ | ⟨x, y, v, c, -, he⟩ | ⟨c, -, he⟩ | ⟨nnn, -, he⟩ |
    ⟨nnn, t, -, hpush, he⟩ | ⟨nnn, -, -, he⟩ | ⟨p, t, -, hpop, he⟩ | ⟨-, -, he⟩
  · exact ⟨_, he, haltRun_mem s⟩
  · exact ⟨_, he, rfl⟩
  · exact ⟨_, he, writeReg_mem x v s⟩
  · exact ⟨_, he, (writeFlag_mem c _).trans (writeReg_mem x v s)⟩
  · exact ⟨_, he, skipIf_mem c s⟩
  · exact ⟨_, he, setPc_mem _ s⟩
  · exact ⟨_, he, (setPc_mem _ t).trans (push_keeps_mem hpush)⟩
  · exact ⟨_, he, raiseFault_mem _ _ s⟩
  · exact ⟨_, he, (setPc_mem p t).trans (pop_keeps_mem hpop)⟩
  · exact ⟨_, he, raiseFault_mem _ _ s⟩

/-- A running machine always steps (40 R121), and its memory stays. -/
theorem loopStep_keeps_mem_of_running {s : State} (hr : s.runState = .running) (odd : OddFetch) :
    ∃ t, loopStep odd s = .next t ∧ t.mem = s.mem := by
  rcases loopStep_cases odd s with ⟨hstop, -⟩ | ⟨r, hstop, -⟩ | ⟨-, hstep⟩
  · simp [hr] at hstop
  · simp [hr] at hstop
  · rcases hstep with ⟨k, -, hfault⟩ | ⟨-, ⟨-, hunhandled⟩ | ⟨i, -, hexec⟩⟩
    · exact ⟨_, hfault, raiseFault_mem k none s⟩
    · exact ⟨_, hunhandled, raiseFault_mem _ _ (advance s)⟩
    · obtain ⟨t, ht, hmem⟩ := exec_keeps_mem i (advance s)
      exact ⟨t, hexec.trans ht, hmem⟩

/-- Settles O40: only a running machine steps, and every such step keeps the memory. -/
theorem noStepWritesMemory : Obligations.NoStepWritesMemory := by
  intro odd s t h
  obtain ⟨u, hu, hmem⟩ := loopStep_keeps_mem_of_running (running_of_loopStep_next h) odd
  obtain rfl : u = t := by simpa [hu] using h
  exact ⟨fun a => by rw [hmem], hmem⟩

end Sys2Proof.Machine
end

section
/-! PROOFS. O56: instances share nothing. A run under a limit is its first step and then the run under the limit that is
left, so turns add up, and a turn of another instance leaves this one alone. -/

namespace Sys2Proof.Machine

/-! ### A run under a limit, case by case -/

/-- A limit of no steps is a stop before the first one (60 R214). -/
theorem hostRun_zero_state (odd : OddFetch) (s : State) : (hostRun odd 0 s).2 = s := by
  unfold hostRun
  cases s.runState <;> rfl

/-- A stopped machine stays as it is under every limit (40 R132). -/
theorem hostRun_state_of_not_running {s : State} (h : s.runState ≠ .running) (odd : OddFetch) (n : Nat) :
    (hostRun odd n s).2 = s := by
  unfold hostRun
  cases hr : s.runState with
  | halted => rfl
  | faulted r => rfl
  | running => exact absurd hr h

theorem hostRun_succ_of_next {odd : OddFetch} {s t : State} (h : loopStep odd s = .next t) (n : Nat) :
    hostRun odd (n + 1) s = hostRun odd n t := by
  rw [hostRun, running_of_loopStep_next h]
  simp only [h]

/-- The state after a run is reached by one step and then the run of the steps left. -/
theorem hostRun_succ_state (odd : OddFetch) (n : Nat) (s : State) :
    (hostRun odd (n + 1) s).2 = (hostRun odd n (hostRun odd 1 s).2).2 := by
  by_cases hr : s.runState = .running
  · obtain ⟨t, ht, -⟩ := loopStep_keeps_mem_of_running hr odd
    rw [hostRun_succ_of_next ht, hostRun_succ_of_next ht, hostRun_zero_state]
  · simp only [hostRun_state_of_not_running hr]

/-! ### Turns -/

/-- Settles O56, by induction on the list of turns: the first turn is either a step of instance `k`, which its own run
takes first too, or leaves it alone. -/
theorem instancesRunAsIfAlone : Obligations.InstancesRunAsIfAlone := by
  intro odd n turns
  induction turns with
  | nil => exact fun ms k => (hostRun_zero_state odd ms[k]).symm
  | cons j turns ih =>
    intro ms k
    rw [runTurns, ih]
    by_cases h : k = j
    · rw [h, instanceTurn_self, List.count_cons_self]
      exact (hostRun_succ_state odd _ ms[j]).symm
    · rw [instanceTurn_other odd h, List.count_cons_of_ne (Ne.symm h)]

end Sys2Proof.Machine
end

section
/-! PROOFS. O3, O5, O7, O8, O15: the decoder is the opcode map. Two lemmas carry all of it: a word that selects a row
dispatches to that row's instruction, and the word of an instruction selects its row. -/

namespace Sys2Proof

/-! ### A word and its fields -/

/-- The class and address fields cover the word (30 R93). -/
theorem encodeNNN_fields (w : Word) : encodeNNN (fields w).C (fields w).NNN = w := by
  apply BitVec.eq_of_toNat_eq
  rw [encodeNNN_toNat, fields_C_toNat, fields_NNN_toNat]
  omega

/-- The four nibbles cover the word (30 R93). -/
theorem encodeXYN_fields (w : Word) : encodeXYN (fields w).C (fields w).X (fields w).Y (fields w).N = w := by
  apply BitVec.eq_of_toNat_eq
  rw [encodeXYN_toNat, fields_C_toNat, fields_X_toNat, fields_Y_toNat, fields_N_toNat]
  omega

/-- Settles O3: a shift is a division, a mask a remainder. -/
theorem fieldsAreShiftsAndMasks : Obligations.FieldsAreShiftsAndMasks := by
  intro w
  have mask4 (n : Nat) : n &&& 0xF = n % 16 := Nat.and_two_pow_sub_one_eq_mod n 4
  have mask8 (n : Nat) : n &&& 0xFF = n % 256 := Nat.and_two_pow_sub_one_eq_mod n 8
  have mask12 (n : Nat) : n &&& 0xFFF = n % 4096 := Nat.and_two_pow_sub_one_eq_mod n 12
  have hw := w.isLt
  simp only [fields_C_toNat, fields_X_toNat, fields_Y_toNat, fields_KK_toNat, fields_N_toNat, fields_NNN_toNat,
    mask4, mask8, mask12, Nat.shiftRight_eq_div_pow, Nat.reducePow, and_self, and_true]
  omega

/-! ### The masks of the opcode map -/

/-! Masking works field by field. -/
theorem encodeNNN_and (c d : Nibble) (a b : Addr) :
    encodeNNN c a &&& encodeNNN d b = encodeNNN (c &&& d) (a &&& b) :=
  BitVec.and_append

theorem encodeXKK_and (c d : Nibble) (x y : RegIdx) (a b : Byte) :
    encodeXKK c x a &&& encodeXKK d y b = encodeXKK (c &&& d) (x &&& y) (a &&& b) :=
  (encodeNNN_and ..).trans (congrArg (encodeNNN _) BitVec.and_append)

theorem encodeXYN_and (c d : Nibble) (x x' y y' : RegIdx) (n m : Nibble) :
    encodeXYN c x y n &&& encodeXYN d x' y' m = encodeXYN (c &&& d) (x &&& x') (y &&& y') (n &&& m) :=
  (encodeXKK_and ..).trans (congrArg (encodeXKK _ _) BitVec.and_append)

/-- The mask 0xF000 keeps the class (30 R98). -/
theorem encodeNNN_and_classMask (c : Nibble) (nnn : Addr) : encodeNNN c nnn &&& 0xF000 = encodeNNN c 0x000 :=
  (encodeNNN_and c (BitVec.allOnes 4) nnn 0x000).trans (by rw [BitVec.and_allOnes]; simp)

/-- The mask 0xF00F keeps the class and the sub-opcode (30 R98). -/
theorem encodeXYN_and_classSubMask (c : Nibble) (x y : RegIdx) (n : Nibble) :
    encodeXYN c x y n &&& 0xF00F = encodeXYN c 0x0 0x0 n :=
  (encodeXYN_and c (BitVec.allOnes 4) x 0x0 y 0x0 n (BitVec.allOnes 4)).trans (by simp only [BitVec.and_allOnes]; simp)

/-- What selection by the whole word says (30 R98). -/
theorem eq_of_and_wholeMask {w p : Word} (h : w &&& 0xFFFF = p) : w = p :=
  (BitVec.and_allOnes (x := w)).symm.trans h

/-- What selection by class alone says (30 R98). -/
theorem class_of_and_classMask {w : Word} (c : Nibble) (h : w &&& 0xF000 = encodeNNN c 0x000) : (fields w).C = c := by
  rw [← encodeNNN_fields w, encodeNNN_and_classMask] at h
  have hC := congrArg (fun v => (fields v).C) h
  simpa only [fields_encodeNNN] using hC

/-- What selection by class and sub-opcode says (30 R98). -/
theorem class_and_sub_of_and_classSubMask {w : Word} (c n : Nibble)
    (h : w &&& 0xF00F = encodeXYN c 0x0 0x0 n) : (fields w).C = c ∧ (fields w).N = n := by
  rw [← encodeXYN_fields w, encodeXYN_and_classSubMask] at h
  have hC := congrArg (fun v => (fields v).C) h
  have hN := congrArg (fun v => (fields v).N) h
  simp only [fields_encodeXYN] at hC hN
  exact ⟨hC, hN⟩

/-! ### Rows and dispatch -/

/-- A word that selects a row dispatches to that row's instruction. -/
theorem dispatch_of_selected_row {w : Word} :
    ∀ r ∈ opcodeMap, w &&& r.mask = r.pattern → dispatch w = some (r.build (fields w)) := by
  simp only [opcodeMap, List.forall_mem_cons]
  refine ⟨fun h => ?halt, fun h => ?cls, fun h => ?ret, fun h => ?jmp, fun h => ?call, fun h => ?seImm,
    fun h => ?sneImm, fun h => ?seReg, fun h => ?ldImm, fun h => ?addImm, fun h => ?ldReg, fun h => ?orReg,
    fun h => ?andReg, fun h => ?xorReg, fun h => ?addReg, by simp⟩
  case halt => rw [eq_of_and_wholeMask h]; rfl
  case cls => rw [eq_of_and_wholeMask h]; rfl
  case ret => rw [eq_of_and_wholeMask h]; rfl
  case jmp => simp [dispatch, class_of_and_classMask 0x1 h]
  case call => simp [dispatch, class_of_and_classMask 0x2 h]
  case seImm => simp [dispatch, class_of_and_classMask 0x3 h]
  case sneImm => simp [dispatch, class_of_and_classMask 0x4 h]
  case seReg => simp [dispatch, class_and_sub_of_and_classSubMask 0x5 0x0 h]
  case ldImm => simp [dispatch, class_of_and_classMask 0x6 h]
  case addImm => simp [dispatch, class_of_and_classMask 0x7 h]
  case ldReg => simp [dispatch, dispatchClass8, class_and_sub_of_and_classSubMask 0x8 0x0 h]
  case orReg => simp [dispatch, dispatchClass8, class_and_sub_of_and_classSubMask 0x8 0x1 h]
  case andReg => simp [dispatch, dispatchClass8, class_and_sub_of_and_classSubMask 0x8 0x2 h]
  case xorReg => simp [dispatch, dispatchClass8, class_and_sub_of_and_classSubMask 0x8 0x3 h]
  case addReg => simp [dispatch, dispatchClass8, class_and_sub_of_and_classSubMask 0x8 0x4 h]

/-- The word of an instruction selects its row, and the row builds the instruction from the word's fields (30 R93). -/
theorem encode_selects_its_row (i : Instr) :
    ∃ r ∈ opcodeMap, encode i &&& r.mask = r.pattern ∧ i = r.build (fields (encode i)) := by
  have xkk (mk : RegIdx → Byte → Instr) (c : Nibble) (x : RegIdx) (kk : Byte) :
      mk x kk = mk (fields (encodeXKK c x kk)).X (fields (encodeXKK c x kk)).KK := by simp only [fields_encodeXKK]
  have xyn (mk : RegIdx → RegIdx → Instr) (c : Nibble) (x y : RegIdx) (n : Nibble) :
      mk x y = mk (fields (encodeXYN c x y n)).X (fields (encodeXYN c x y n)).Y := by simp only [fields_encodeXYN]
  suffices h : ∃ k : Fin 15, encode i &&& (opcodeMap.get k).mask = (opcodeMap.get k).pattern ∧
      i = (opcodeMap.get k).build (fields (encode i)) by
    obtain ⟨k, hk⟩ := h
    exact ⟨opcodeMap.get k, opcodeMap.get_mem k, hk⟩
  cases i with
  | halt => exact ⟨0, rfl, rfl⟩
  | cls => exact ⟨1, rfl, rfl⟩
  | ret => exact ⟨2, rfl, rfl⟩
  | jmp nnn => exact ⟨3, encodeNNN_and_classMask 0x1 nnn, congrArg Instr.jmp (fields_encodeNNN 0x1 nnn).2.symm⟩
  | call nnn => exact ⟨4, encodeNNN_and_classMask 0x2 nnn, congrArg Instr.call (fields_encodeNNN 0x2 nnn).2.symm⟩
  | seImm x kk => exact ⟨5, encodeNNN_and_classMask 0x3 (x ++ kk), xkk .seImm 0x3 x kk⟩
  | sneImm x kk => exact ⟨6, encodeNNN_and_classMask 0x4 (x ++ kk), xkk .sneImm 0x4 x kk⟩
  | seReg x y => exact ⟨7, encodeXYN_and_classSubMask 0x5 x y 0x0, xyn .seReg 0x5 x y 0x0⟩
  | ldImm x kk => exact ⟨8, encodeNNN_and_classMask 0x6 (x ++ kk), xkk .ldImm 0x6 x kk⟩
  | addImm x kk => exact ⟨9, encodeNNN_and_classMask 0x7 (x ++ kk), xkk .addImm 0x7 x kk⟩
  | ldReg x y => exact ⟨10, encodeXYN_and_classSubMask 0x8 x y 0x0, xyn .ldReg 0x8 x y 0x0⟩
  | orReg x y => exact ⟨11, encodeXYN_and_classSubMask 0x8 x y 0x1, xyn .orReg 0x8 x y 0x1⟩
  | andReg x y => exact ⟨12, encodeXYN_and_classSubMask 0x8 x y 0x2, xyn .andReg 0x8 x y 0x2⟩
  | xorReg x y => exact ⟨13, encodeXYN_and_classSubMask 0x8 x y 0x3, xyn .xorReg 0x8 x y 0x3⟩
  | addReg x y => exact ⟨14, encodeXYN_and_classSubMask 0x8 x y 0x4, xyn .addReg 0x8 x y 0x4⟩

/-- Dispatch is selection in the opcode map (30 R100). -/
theorem dispatch_eq_some_iff (w : Word) (i : Instr) :
    dispatch w = some i ↔ ∃ r ∈ opcodeMap, w &&& r.mask = r.pattern ∧ i = r.build (fields w) := by
  constructor
  · intro h
    rw [← encode_of_dispatch h]
    exact encode_selects_its_row i
  · rintro ⟨r, hr, hsel, rfl⟩
    exact dispatch_of_selected_row r hr hsel

theorem dispatch_eq_none_iff (w : Word) :
    dispatch w = none ↔ ∀ r ∈ opcodeMap, w &&& r.mask ≠ r.pattern := by
  simp only [Option.eq_none_iff_forall_ne_some, ne_eq, dispatch_eq_some_iff]
  exact ⟨fun h r hr hsel => h _ ⟨r, hr, hsel, rfl⟩, fun h i ⟨r, hr, hsel, _⟩ => h r hr hsel⟩

/-- Encoding is undone by dispatch (30 R93). -/
theorem dispatch_encode (i : Instr) : dispatch (encode i) = some i :=
  (dispatch_eq_some_iff _ i).2 (encode_selects_its_row i)

/-! ### The statements -/

/-- Settles O5: the two bytes make the word of `i` again, and dispatch undoes the encoding. -/
theorem decodingAnEncodedInstructionGivesItBack : Obligations.DecodingAnEncodedInstructionGivesItBack := by
  intro i rest _
  have hi : decodeWord (encode i) = .ok i := (decodeWord_ok _ i).2 (dispatch_encode i)
  rw [encodeBytes, List.cons_append, List.cons_append, List.nil_append, decode_cons_cons, wordOfBytes_hi_lo, hi]
  rfl

/-- Settles O7: `decodeWord` answers what `dispatch` answers, and dispatch is selection in the opcode map. -/
theorem decoderIsTheOpcodeMap : Obligations.DecoderIsTheOpcodeMap := by
  refine ⟨fun w i => (decodeWord_ok w i).trans (dispatch_eq_some_iff w i), fun w => ?_⟩
  rw [← dispatch_eq_none_iff]
  simp [decodeWord_error]

/-- Each row builds an instruction of its own form. -/
theorem builds_of_rows_differ : opcodeMap.Pairwise fun r q => ∀ f, r.build f ≠ q.build f := by
  simp [opcodeMap]

/-- Settles O8: dispatch answers one instruction for a word, and two rows never build the same one. -/
theorem opcodeRowsAreDisjoint : Obligations.OpcodeRowsAreDisjoint := by
  refine builds_of_rows_differ.imp_of_mem ?_
  rintro r q hr hq hbuild w ⟨hrw, hqw⟩
  have hr' := dispatch_of_selected_row r hr (by simpa [OpcodeRow.selects] using hrw)
  have hq' := dispatch_of_selected_row q hq (by simpa [OpcodeRow.selects] using hqw)
  exact hbuild (fields w) (Option.some.inj (hr'.symm.trans hq'))

/-- Classes 9 to F and the sub-opcodes 5 to F of class 8 assign no instruction (30 R104, R106). -/
theorem dispatch_eq_none_of_unassigned {w : Word}
    (h : 9 ≤ w.toNat / 4096 ∨ (w.toNat / 4096 = 8 ∧ 5 ≤ w.toNat % 16)) : dispatch w = none := by
  rw [← fields_C_toNat, ← fields_N_toNat] at h
  rcases h with hC | ⟨hC, hN⟩
  · simp only [dispatch]
    split
    case h_10 => rfl
    all_goals omega
  · simp only [dispatch, hC]
    exact (dispatchClass8_eq_none _).2 hN

end Sys2Proof

namespace Sys2Proof.Machine

/-- Settles O15: such a word dispatches to nothing, so the step raises the fault on the advanced state. -/
theorem unassignedClassesRaiseUnhandledOpcode : Obligations.UnassignedClassesRaiseUnhandledOpcode := by
  intro odd s hs hw
  have hstep := executeFetched_of_dispatch_none (dispatch_eq_none_of_unassigned hw) (advance s)
  exact ⟨_, _, (loopStep_of_fetchable hs).trans hstep, rfl, rfl, rfl, fun _ => rfl⟩

end Sys2Proof.Machine
end

section
/-! PROOFS. O2, O10, O14, O17, O35: one step of the loop. What it fetches, what it runs, that it always answers, and what
a step that faults leaves behind. -/

namespace Sys2Proof

/-- A word dispatches to nothing exactly when it selects no row of the opcode map (30 R105). -/
theorem dispatch_eq_none_iff_selects (w : Word) :
    dispatch w = none ↔ ∀ r ∈ opcodeMap, r.selects w = false := by
  simp [dispatch_eq_none_iff, OpcodeRow.selects]

end Sys2Proof

namespace Sys2Proof.Machine

/-! ### Fetch and advance -/

/-- Settles O2: the low byte fits below the shifted high one, so the sum of the two is their disjunction. -/
theorem fetchedWordIsBigEndian : Obligations.FetchedWordIsBigEndian := by
  intro s
  rw [fetchWord, wordAt, wordOfBytes_toNat, ← Nat.shiftLeft_add_eq_or_of_lt (BitVec.isLt _), Nat.shiftLeft_eq]

/-- The advance from a pc that can be fetched is exact (40 R125, 10 R40). -/
theorem advance_pc_toNat {s : State} (h : s.pc.toNat ≤ 4094) : (advance s).pc.toNat = s.pc.toNat + 2 :=
  addPc2_exact (by omega)

/-- Settles O10: the guard passes, and the advance writes the pc only. -/
theorem stepRunsTheDecodedInstruction : Obligations.StepRunsTheDecodedInstruction := by
  refine ⟨fun _ => rfl, fun odd s i hs hi => ?_⟩
  have hstep : loopStep odd s = exec i (advance s) :=
    (loopStep_of_fetchable hs).trans (executeFetched_of_dispatch_some ((decodeWord_ok _ i).1 hi) _)
  obtain ⟨hrun, hpc, -⟩ := hs
  exact ⟨hstep, advance_pc_toNat hpc, fun _ => rfl, ⟨rfl, fun _ => rfl⟩, fun _ => rfl, hrun⟩

/-- Settles O14: such a word dispatches to nothing, and raising the fault keeps the advanced pc. -/
theorem unhandledWordFaultsAfterTheAdvance : Obligations.UnhandledWordFaultsAfterTheAdvance := by
  intro odd s hs hw
  have hd : dispatch (fetchWord s) = none := (dispatch_eq_none_iff_selects _).2 hw
  have hstep := (loopStep_of_fetchable hs).trans (executeFetched_of_dispatch_none hd (advance s))
  obtain ⟨-, hpc, -⟩ := hs
  exact ⟨_, hstep, rfl, advance_pc_toNat hpc, fun _ => rfl, ⟨rfl, fun _ => rfl⟩, fun _ => rfl⟩

/-- Settles O17: no branch of the loop refuses a running machine or stops it without a next state. -/
theorem runningMachineAlwaysSteps : Obligations.RunningMachineAlwaysSteps := by
  intro odd s hr
  obtain ⟨t, ht, -⟩ := loopStep_keeps_mem_of_running hr odd
  exact ⟨t, ht⟩

/-! ### Steps that fault -/

/-- The two kinds that a fetch raises before there is a word (60 R204, R205). -/
def FaultKind.IsFetchFault (k : FaultKind) : Prop := k = .pcOutOfRange ∨ k = .pcMisaligned

theorem isFetchFault_of_fetchGuard {odd : OddFetch} {pc : PC} {k : FaultKind} (h : fetchGuard odd pc = some k) :
    k.IsFetchFault := by
  rcases fetchGuard_cases odd pc with ⟨-, hg⟩ | ⟨-, -, -, hg⟩ | ⟨-, -, hg⟩
  · exact .inl (Option.some.inj (h.symm.trans hg))
  · exact .inr (Option.some.inj (h.symm.trans hg))
  · simp [hg] at h

theorem skipIf_runState (c : Bool) (s : State) : (skipIf c s).runState = s.runState := by
  rw [skipIf_eq, setPc_runState]

theorem push_keeps_runState {v : PC} {s t : State} (h : push v s = some t) : t.runState = s.runState := by
  rcases push_cases v s with ⟨-, hnone⟩ | ⟨_, u, hsome, -, -, -, -, -, hrun⟩
  · simp [hnone] at h
  · obtain rfl : u = t := by simpa [hsome] using h
    exact hrun

theorem pop_keeps_runState {p : PC} {s t : State} (h : pop s = some (p, t)) : t.runState = s.runState := by
  rcases pop_cases s with ⟨-, hnone⟩ | ⟨_, u, -, hsome, -, -, -, -, -, hrun⟩
  · simp [hnone] at h
  · obtain ⟨-, rfl⟩ : _ ∧ u = t := by simpa [hsome] using h
    exact hrun

/-- An instruction keeps the run state, halts, or faults; a fault is all that it then does, and its record has the
instruction's own word (60 R208). -/
theorem exec_runState_cases (i : Instr) (s : State) :
    ∃ t, exec i s = .next t ∧
      (t.runState = s.runState ∨ t.runState = .halted ∨
        ∃ k : FaultKind, ¬ k.IsFetchFault ∧ t = raiseFault k (some (encode i)) s) := by
  rcases exec_cases i s with ⟨-, he⟩ | ⟨-, he⟩ | ⟨x, v, he⟩ | ⟨x, y, v, c, -, he⟩ | ⟨c, -, he⟩ | ⟨nnn, -, he⟩ |
    ⟨nnn, t, -, hpush, he⟩ | ⟨nnn, rfl, -, he⟩ | ⟨p, t, -, hpop, he⟩ | ⟨rfl, -, he⟩
  · exact ⟨_, he, .inr (.inl rfl)⟩
  · exact ⟨_, he, .inl rfl⟩
  · exact ⟨_, he, .inl rfl⟩
  · exact ⟨_, he, .inl rfl⟩
  · exact ⟨_, he, .inl (skipIf_runState c s)⟩
  · exact ⟨_, he, .inl rfl⟩
  · exact ⟨_, he, .inl ((setPc_runState _ t).trans (push_keeps_runState hpush))⟩
  · exact ⟨_, he, .inr (.inr ⟨_, by simp [FaultKind.IsFetchFault], rfl⟩)⟩
  · exact ⟨_, he, .inl ((setPc_runState p t).trans (pop_keeps_runState hpop))⟩
  · exact ⟨_, he, .inr (.inr ⟨_, by simp [FaultKind.IsFetchFault], rfl⟩)⟩

/-- A step that ends in a fault does nothing but raise it, at the fetch on the state before the step, and otherwise on the
advanced state with the fetched word (40 R135). -/
theorem faulting_step_cases {odd : OddFetch} {s t : State} {r : FaultRecord} (hstep : loopStep odd s = .next t)
    (hfault : t.runState = .faulted r) :
    (∃ k : FaultKind, k.IsFetchFault ∧ t = raiseFault k none s) ∨
      (s.pc.toNat ≤ 4094 ∧
        ∃ k : FaultKind, ¬ k.IsFetchFault ∧ t = raiseFault k (some (fetchWord s)) (advance s)) := by
  have hrun := running_of_loopStep_next hstep
  cases hg : fetchGuard odd s.pc with
  | some k =>
    rw [loopStep_of_guard_some hrun hg] at hstep
    cases hstep
    exact .inl ⟨k, isFetchFault_of_fetchGuard hg, rfl⟩
  | none =>
    rw [loopStep_of_guard_none hrun hg] at hstep
    refine .inr ⟨((fetchGuard_none odd s.pc).1 hg).1, ?_⟩
    cases hd : dispatch (fetchWord s) with
    | none =>
      rw [executeFetched_of_dispatch_none hd] at hstep
      cases hstep
      exact ⟨.unhandledOpcode, by simp [FaultKind.IsFetchFault], rfl⟩
    | some i =>
      rw [executeFetched_of_dispatch_some hd] at hstep
      obtain ⟨u, hu, hcases⟩ := exec_runState_cases i (advance s)
      obtain rfl : u = t := by simpa [hu] using hstep
      rw [encode_of_dispatch hd] at hcases
      rcases hcases with hsame | hhalt | hraise
      · simp [hfault, hrun] at hsame
      · simp [hfault] at hhalt
      · exact hraise

/-- Settles O35: a faulting step is `raiseFault`, which writes the run state only. -/
theorem faultsArePrecise : Obligations.FaultsArePrecise := by
  intro odd s t r hstep hfault
  rcases faulting_step_cases hstep hfault with ⟨k, hk, rfl⟩ | ⟨hpc, k, hk, rfl⟩
  · obtain rfl := RunState.faulted.inj hfault
    exact ⟨fun _ => rfl, ⟨rfl, fun _ => rfl⟩, fun _ => rfl, rfl, (if_pos hk).mpr ⟨rfl, rfl⟩⟩
  · obtain rfl := RunState.faulted.inj hfault
    exact ⟨fun _ => rfl, ⟨rfl, fun _ => rfl⟩, fun _ => rfl, rfl, (if_neg hk).mpr ⟨advance_pc_toNat hpc, rfl⟩⟩

end Sys2Proof.Machine
end

section
/-! PROOFS. O36: the run state after every step, read from the fetched word. -/

namespace Sys2Proof

/-! ### The class of an instruction's word -/

/-- The op-class of an instruction (30 R100). -/
@[simp] def Instr.opClass : Instr → Nat
  | .halt | .cls | .ret => 0
  | .jmp _ => 1
  | .call _ => 2
  | .seImm _ _ => 3
  | .sneImm _ _ => 4
  | .seReg _ _ => 5
  | .ldImm _ _ => 6
  | .addImm _ _ => 7
  | .ldReg _ _ | .orReg _ _ | .andReg _ _ | .xorReg _ _ | .addReg _ _ => 8

theorem encode_class (i : Instr) : (encode i).toNat / 4096 = i.opClass := by
  cases i with
  | halt => rfl
  | cls => rfl
  | ret => rfl
  | jmp nnn => exact encodeNNN_class 1 nnn
  | call nnn => exact encodeNNN_class 2 nnn
  | seImm x kk => exact (encodeXKK_numbers 3 x kk).1
  | sneImm x kk => exact (encodeXKK_numbers 4 x kk).1
  | seReg x y => exact (encodeXYN_numbers 5 x y 0).1
  | ldImm x kk => exact (encodeXKK_numbers 6 x kk).1
  | addImm x kk => exact (encodeXKK_numbers 7 x kk).1
  | ldReg x y => exact (encodeXYN_numbers 8 x y 0).1
  | orReg x y => exact (encodeXYN_numbers 8 x y 1).1
  | andReg x y => exact (encodeXYN_numbers 8 x y 2).1
  | xorReg x y => exact (encodeXYN_numbers 8 x y 3).1
  | addReg x y => exact (encodeXYN_numbers 8 x y 4).1

end Sys2Proof

namespace Sys2Proof.Machine

/-! ### The run state after an instruction -/

/-- The run state that the word `w` of an instruction leaves, executed on `s` (41 R140; 60 R201, R202). -/
def runStateAfterWord (w : Word) (s : State) : RunState :=
  if w = 0x0000 then .halted
  else if w = 0x00EE ∧ s.sp.val = 0 then
    .faulted { kind := .stackUnderflow, pc := s.pc, opcode := some w }
  else if w.toNat / 4096 = 2 ∧ s.sp.val = 16 then
    .faulted { kind := .stackOverflow, pc := s.pc, opcode := some w }
  else s.runState

/-- HALT and RET are words of class 0. -/
theorem runStateAfterWord_of_class_ne_zero {w : Word} (h0 : w.toNat / 4096 ≠ 0) (s : State) :
    runStateAfterWord w s =
      if w.toNat / 4096 = 2 ∧ s.sp.val = 16 then
        .faulted { kind := .stackOverflow, pc := s.pc, opcode := some w }
      else s.runState := by
  have hhalt : w ≠ 0x0000 := by rintro rfl; exact h0 rfl
  have hret : ¬ (w = 0x00EE ∧ s.sp.val = 0) := by rintro ⟨rfl, -⟩; exact h0 rfl
  rw [runStateAfterWord, if_neg hhalt, if_neg hret]

theorem execRet_runState (s : State) :
    ∃ t, execRet s = .next t ∧ t.runState = runStateAfterWord (encode .ret) s := by
  rcases pop_cases s with ⟨hempty, hpop⟩ | ⟨_, t, hpos, hpop, -, -, -, -, -, hrun⟩
  · simp only [execRet, hpop]
    exact ⟨_, rfl, by simp [runStateAfterWord, encode, hempty]⟩
  · simp only [execRet, hpop]
    exact ⟨_, rfl, by simp [runStateAfterWord, encode, hpos.ne', hrun]⟩

theorem execCall_runState (nnn : Addr) (s : State) :
    ∃ t, execCall nnn s = .next t ∧ t.runState = runStateAfterWord (encode (.call nnn)) s := by
  have hC : (encode (.call nnn)).toNat / 4096 = 2 := encode_class (.call nnn)
  rw [runStateAfterWord_of_class_ne_zero (by omega)]
  rcases push_cases s.pc s with ⟨hfull, hpush⟩ | ⟨hlt, t, hpush, -, -, -, -, -, hrun⟩
  · simp only [execCall, hpush]
    exact ⟨_, rfl, by simp [hC, hfull]⟩
  · simp only [execCall, hpush]
    exact ⟨_, rfl, by simp [hC, hlt.ne, hrun]⟩

/-- Every instruction answers a next state whose run state is the one its word gives. -/
theorem exec_runState (i : Instr) (s : State) :
    ∃ t, exec i s = .next t ∧ t.runState = runStateAfterWord (encode i) s := by
  have keeps {t : State} (hC : i.opClass ≠ 0 ∧ i.opClass ≠ 2) (ht : exec i s = .next t)
      (hrun : t.runState = s.runState) : ∃ t, exec i s = .next t ∧ t.runState = runStateAfterWord (encode i) s := by
    rw [← encode_class] at hC
    rw [runStateAfterWord_of_class_ne_zero (by omega), if_neg (by omega)]
    exact ⟨t, ht, hrun⟩
  cases i with
  | halt => exact ⟨_, rfl, rfl⟩
  | cls => exact ⟨_, rfl, rfl⟩
  | ret => exact execRet_runState s
  | jmp nnn => exact keeps (by simp) rfl rfl
  | call nnn => exact execCall_runState nnn s
  | seImm x kk => exact keeps (by simp) rfl (skipIf_runState _ s)
  | sneImm x kk => exact keeps (by simp) rfl (skipIf_runState _ s)
  | seReg x y => exact keeps (by simp) rfl (skipIf_runState _ s)
  | ldImm x kk => exact keeps (by simp) rfl rfl
  | addImm x kk => exact keeps (by simp) rfl rfl
  | ldReg x y => exact keeps (by simp) rfl rfl
  | orReg x y => exact keeps (by simp) rfl rfl
  | andReg x y => exact keeps (by simp) rfl rfl
  | xorReg x y => exact keeps (by simp) rfl rfl
  | addReg x y => exact keeps (by simp) rfl rfl

/-! ### The run state after a step -/

/-- A word that no row of the opcode map takes is one that dispatches to nothing (30 R105). -/
theorem all_rows_unselected_iff (w : Word) : opcodeMap.all (fun r => !r.selects w) = true ↔ dispatch w = none := by
  simp [dispatch_eq_none_iff_selects]

/-- The run state that the word `w` leaves, executed on `s`, unhandled words included (60 R203). -/
theorem executeFetched_runState (w : Word) (s : State) :
    ∃ t, executeFetched w s = .next t ∧
      t.runState =
        if opcodeMap.all (fun r => !r.selects w) then
          .faulted { kind := .unhandledOpcode, pc := s.pc, opcode := some w }
        else runStateAfterWord w s := by
  cases hd : dispatch w with
  | none =>
    rw [if_pos ((all_rows_unselected_iff w).2 hd)]
    exact ⟨_, executeFetched_of_dispatch_none hd s, rfl⟩
  | some i =>
    rw [if_neg fun hall => by simp [(all_rows_unselected_iff w).1 hall] at hd, executeFetched_of_dispatch_some hd,
      ← encode_of_dispatch hd]
    exact exec_runState i s

/-- Settles O36: the guard decides the first two cases, the word the others, on the advanced state. -/
theorem runStateAfterEveryStep : Obligations.RunStateAfterEveryStep := by
  intro odd s hr
  rcases fetchGuard_cases odd s.pc with ⟨hpc, hg⟩ | ⟨hpc, hodd, hpar, hg⟩ | ⟨hpc, hpar, hg⟩
  · rw [if_pos hpc]
    exact ⟨_, loopStep_of_guard_some hr hg, rfl⟩
  · rw [if_neg hpc.not_gt, if_pos ⟨hodd, hpar⟩]
    exact ⟨_, loopStep_of_guard_some hr hg, rfl⟩
  · have heven : ¬ (odd = .fault ∧ s.pc.toNat % 2 = 1) := fun c => by
      have := hpar c.1
      omega
    rw [if_neg hpc.not_gt, if_neg heven, ← hr]
    obtain ⟨t, ht, hrun⟩ := executeFetched_runState (fetchWord s) (advance s)
    exact ⟨t, (loopStep_of_guard_none hr hg).trans ht, hrun⟩

end Sys2Proof.Machine
end

section
/-! PROOFS. O38: the pc after every step. `pcAfterWord` is read case by case, and `exec` is held to it on the advanced
state, whose pc is the fetched word's address + 2. -/

namespace Sys2Proof

/-- The address of a word of format `NNN` (30 R92). -/
theorem encodeNNN_address (c : Nibble) (nnn : Addr) : (encodeNNN c nnn).toNat % 4096 = nnn.toNat := by
  rw [← fields_NNN_toNat, (fields_encodeNNN c nnn).2]

/-- RET, the classes 1 to 4 and class 5 with `N = 0` always dispatch (30 R98). -/
theorem transfer_of_dispatch_none {w : Word} (h : dispatch w = none) :
    w.toNat ≠ 0x00EE ∧ (w.toNat / 4096 = 0 ∨ 5 ≤ w.toNat / 4096) ∧ (w.toNat / 4096 = 5 → w.toNat % 16 ≠ 0) := by
  refine ⟨fun hret => ?_, ?_, fun hC hN => ?_⟩
  · obtain rfl : w = encode .ret := BitVec.eq_of_toNat_eq hret
    simp [dispatch_encode] at h
  · by_contra! hC
    obtain hC | hC | hC | hC : w.toNat / 4096 = 1 ∨ w.toNat / 4096 = 2 ∨ w.toNat / 4096 = 3 ∨ w.toNat / 4096 = 4 := by
      omega
    all_goals simp [dispatch, fields_C_toNat, hC] at h
  · have hN0 : (fields w).N = 0 := BitVec.eq_of_toNat_eq ((fields_N_toNat w).trans hN)
    simp [dispatch, fields_C_toNat, hC, hN0] at h

end Sys2Proof

namespace Sys2Proof.Machine

/-! ### The cases of `pcAfterWord` -/

/-- A jump's target, JMP's and a successful CALL's (42 R151, R152). -/
theorem pcAfterWord_of_jump {w sp : Nat} (h : w / 4096 = 1 ∨ w / 4096 = 2 ∧ sp < 16) (pc : Nat) (v e : Nat → Nat) :
    pcAfterWord w pc sp v e = w % 4096 := by
  have hret : ¬ (w = 0x00EE ∧ 0 < sp) := by omega
  rw [pcAfterWord, if_neg hret, if_pos h]

/-- The skips are the words of the classes 3, 4 and 5 (43 R160 to R162). -/
theorem pcAfterWord_of_class_ge_three {w : Nat} (h : 3 ≤ w / 4096) (pc sp : Nat) (v e : Nat → Nat) :
    pcAfterWord w pc sp v e =
      if (w / 4096 = 3 ∧ v (w / 256 % 16) = w % 256) ∨ (w / 4096 = 4 ∧ v (w / 256 % 16) ≠ w % 256) ∨
          (w / 4096 = 5 ∧ w % 16 = 0 ∧ v (w / 256 % 16) = v (w / 16 % 16)) then pc + 4
      else pc + 2 := by
  have hret : ¬ (w = 0x00EE ∧ 0 < sp) := by omega
  have hjump : ¬ (w / 4096 = 1 ∨ w / 4096 = 2 ∧ sp < 16) := by omega
  rw [pcAfterWord, if_neg hret, if_neg hjump]

/-- All that is left is the advance (40 R125): no RET that pops, no jump, no skip. -/
theorem pcAfterWord_of_no_transfer {w sp : Nat} (hret : ¬ (w = 0x00EE ∧ 0 < sp)) (h1 : w / 4096 ≠ 1)
    (h2 : w / 4096 = 2 → 16 ≤ sp) (h34 : w / 4096 ≠ 3 ∧ w / 4096 ≠ 4) (h5 : w / 4096 = 5 → w % 16 ≠ 0)
    (pc : Nat) (v e : Nat → Nat) : pcAfterWord w pc sp v e = pc + 2 := by
  have hjump : ¬ (w / 4096 = 1 ∨ w / 4096 = 2 ∧ sp < 16) := by omega
  rw [pcAfterWord, if_neg hret, if_neg hjump, if_neg]
  rintro (⟨h, -⟩ | ⟨h, -⟩ | ⟨h, hN, -⟩)
  exacts [h34.1 h, h34.2 h, h5 h hN]

theorem entryNumber_eq (s : State) (k : Fin Config.stackDepth) : entryNumber s k.val = (stackEntry k s).toNat :=
  dif_pos k.isLt

/-! ### The pc after an instruction -/

/-- A skip moves the advanced pc by 2 or not at all, exactly (43 R163, 10 R40). -/
theorem skipIf_pc_toNat {s : State} {pc : Nat} (hs : s.pc.toNat = pc + 2) (hpc : pc ≤ 4094) (c : Bool) :
    (skipIf c s).pc.toNat = if c = true then pc + 4 else pc + 2 := by
  unfold skipIf
  split_ifs
  · rw [addPc2_exact (by omega), hs]
  · exact hs

/-- The pc of `t` is what the rules give for the word `w` fetched at `pc`, on the registers and call stack of `s`. -/
def PcFollowsWord (w : Word) (pc : Nat) (s t : State) : Prop :=
  t.pc.toNat = pcAfterWord w.toNat pc s.sp.val (regNumber s) (entryNumber s)

theorem execRet_pcFollowsWord {s : State} {pc : Nat} (hs : s.pc.toNat = pc + 2) :
    ∃ t, execRet s = .next t ∧ PcFollowsWord (encode .ret) pc s t := by
  rcases pop_cases s with ⟨hempty, hpop⟩ | ⟨hlt, t, hpos, hpop, -⟩
  · simp only [execRet, hpop]
    exact ⟨_, rfl, by simp [PcFollowsWord, pcAfterWord, encode, hempty, hs]⟩
  · simp only [execRet, hpop]
    refine ⟨_, rfl, ?_⟩
    rw [PcFollowsWord, setPc_pc, ← entryNumber_eq]
    exact (if_pos ⟨rfl, hpos⟩).symm

theorem execCall_pcFollowsWord (nnn : Addr) {s : State} {pc : Nat} (hs : s.pc.toNat = pc + 2) :
    ∃ t, execCall nnn s = .next t ∧ PcFollowsWord (encode (.call nnn)) pc s t := by
  have hC : (encode (.call nnn)).toNat / 4096 = 2 := encode_class (.call nnn)
  rcases push_cases s.pc s with ⟨hfull, hpush⟩ | ⟨hlt, t, hpush, -⟩
  · simp only [execCall, hpush]
    exact ⟨_, rfl, hs.trans
      (pcAfterWord_of_no_transfer (by omega) (by omega) (fun _ => hfull.ge) (by omega) (by omega) ..).symm⟩
  · simp only [execCall, hpush]
    refine ⟨_, rfl, ?_⟩
    rw [PcFollowsWord, pcAfterWord_of_jump (.inr ⟨hC, hlt⟩), setPc_pc, targetOperand_toNat]
    exact (encodeNNN_address 2 nnn).symm

/-- Every instruction on an advanced state answers a next state whose pc follows its word (42, 43). -/
theorem exec_pcFollowsWord (i : Instr) {s : State} {pc : Nat} (hs : s.pc.toNat = pc + 2) (hpc : pc ≤ 4094) :
    ∃ t, exec i s = .next t ∧ PcFollowsWord (encode i) pc s t := by
  have falls {t : State} (h : 6 ≤ i.opClass) (ht : exec i s = .next t) (hpct : t.pc = s.pc) :
      ∃ t, exec i s = .next t ∧ PcFollowsWord (encode i) pc s t := by
    rw [← encode_class] at h
    refine ⟨t, ht, ?_⟩
    rw [PcFollowsWord, hpct, hs, pcAfterWord_of_no_transfer] <;> omega
  have skips {c : Bool} (ht : exec i s = .next (skipIf c s))
      (hw : pcAfterWord (encode i).toNat pc s.sp.val (regNumber s) (entryNumber s) =
        if c = true then pc + 4 else pc + 2) : ∃ t, exec i s = .next t ∧ PcFollowsWord (encode i) pc s t :=
    ⟨_, ht, (skipIf_pc_toNat hs hpc c).trans hw.symm⟩
  cases i with
  | halt => exact ⟨_, rfl, hs⟩
  | cls => exact ⟨_, rfl, hs⟩
  | ret => exact execRet_pcFollowsWord hs
  | jmp nnn =>
    refine ⟨_, rfl, ?_⟩
    rw [PcFollowsWord, pcAfterWord_of_jump (.inl (encode_class (.jmp nnn))), setPc_pc, targetOperand_toNat]
    exact (encodeNNN_address 1 nnn).symm
  | call nnn => exact execCall_pcFollowsWord nnn hs
  | seImm x kk =>
    obtain ⟨hC, hX, hKK⟩ := encodeXKK_numbers 3#4 x kk
    refine skips rfl ?_
    simp [encode, pcAfterWord_of_class_ge_three, hC, hX, hKK, regNumber_toNat, regOperand, immOperand, BitVec.toNat_inj]
  | sneImm x kk =>
    obtain ⟨hC, hX, hKK⟩ := encodeXKK_numbers 4#4 x kk
    refine skips rfl ?_
    simp [encode, pcAfterWord_of_class_ge_three, hC, hX, hKK, regNumber_toNat, regOperand, immOperand, BitVec.toNat_inj]
  | seReg x y =>
    obtain ⟨hC, hX, hY, hN⟩ := encodeXYN_numbers 5#4 x y 0#4
    refine skips rfl ?_
    simp [encode, pcAfterWord_of_class_ge_three, hC, hX, hY, hN, regNumber_toNat, regOperand, BitVec.toNat_inj]
  | ldImm x kk => exact falls (by simp) rfl rfl
  | addImm x kk => exact falls (by simp) rfl rfl
  | ldReg x y => exact falls (by simp) rfl rfl
  | orReg x y => exact falls (by simp) rfl rfl
  | andReg x y => exact falls (by simp) rfl rfl
  | xorReg x y => exact falls (by simp) rfl rfl
  | addReg x y => exact falls (by simp) rfl rfl

/-- The same for every word, those included that select no row: after these the pc is the advanced one (40 R129). -/
theorem executeFetched_pcFollowsWord (w : Word) {s : State} {pc : Nat} (hs : s.pc.toNat = pc + 2) (hpc : pc ≤ 4094) :
    ∃ t, executeFetched w s = .next t ∧ PcFollowsWord w pc s t := by
  cases hd : dispatch w with
  | none =>
    obtain ⟨hret, h14, h5⟩ := transfer_of_dispatch_none hd
    exact ⟨_, executeFetched_of_dispatch_none hd s,
      hs.trans (pcAfterWord_of_no_transfer (fun c => hret c.1) (by omega) (by omega) (by omega) h5 ..).symm⟩
  | some i =>
    rw [executeFetched_of_dispatch_some hd, ← encode_of_dispatch hd]
    exact exec_pcFollowsWord i hs hpc

/-- Settles O38: the fetched word runs on the advanced state, which has the registers and the call stack of `s`. -/
theorem pcAfterEveryStep : Obligations.PcAfterEveryStep := by
  intro odd s hs
  obtain ⟨-, hpc, -⟩ := id hs
  obtain ⟨t, ht, hfollow⟩ := executeFetched_pcFollowsWord (fetchWord s) (advance_pc_toNat hpc) hpc
  exact ⟨t, (loopStep_of_fetchable hs).trans ht, hfollow⟩

end Sys2Proof.Machine
end

section
/-! PROOFS. O54 and O55: how a run under a step limit ends. `hostRun` has three cases: the limit is used up, the machine
has stopped, or a running machine takes one step. -/

namespace Sys2Proof.Machine

/-- The end of a run whose last state has the given run state (40 R134, 60 R214). -/
def RunState.runEnd : RunState → RunEnd
  | .running => .stopped
  | .halted => .halted
  | .faulted r => .faulted r

theorem runEnd_eq_halted_iff (rs : RunState) : rs.runEnd = .halted ↔ rs = .halted := by
  cases rs <;> simp [RunState.runEnd]

theorem runEnd_eq_faulted_iff (rs : RunState) (r : FaultRecord) : rs.runEnd = .faulted r ↔ rs = .faulted r := by
  cases rs <;> simp [RunState.runEnd]

theorem runEnd_eq_stopped_iff (rs : RunState) : rs.runEnd = .stopped ↔ rs = .running := by
  cases rs <;> simp [RunState.runEnd]

/-- A limit of no steps ends the run at once (60 R214). -/
theorem hostRun_zero (odd : OddFetch) (s : State) : hostRun odd 0 s = (s.runState.runEnd, s) := by
  unfold hostRun
  cases s.runState <;> rfl

/-- A stopped machine ends the run under every limit (40 R132). -/
theorem hostRun_of_not_running {s : State} (h : s.runState ≠ .running) (odd : OddFetch) (n : Nat) :
    hostRun odd n s = (s.runState.runEnd, s) := by
  unfold hostRun
  cases hr : s.runState with
  | running => exact absurd hr h
  | halted => rfl
  | faulted r => rfl

/-- A running machine takes its first step, which always answers (40 R131). -/
theorem hostRun_succ_of_running {s : State} (h : s.runState = .running) (odd : OddFetch) :
    ∃ t, loopStep odd s = .next t ∧ ∀ n, hostRun odd (n + 1) s = hostRun odd n t := by
  obtain ⟨t, ht⟩ := runningMachineAlwaysSteps odd s h
  exact ⟨t, ht, hostRun_succ_of_next ht⟩

/-- The outcome of a run is read off the run state of its last state. -/
theorem hostRun_end (odd : OddFetch) (n : Nat) (s : State) :
    (hostRun odd n s).1 = (hostRun odd n s).2.runState.runEnd := by
  induction n generalizing s with
  | zero => rw [hostRun_zero]
  | succ n ih =>
    by_cases hr : s.runState = .running
    · obtain ⟨t, -, hrun⟩ := hostRun_succ_of_running hr odd
      rw [hrun]
      exact ih t
    · rw [hostRun_of_not_running hr]

/-- A run takes as many steps as its limit if it ends as `Stopped`, and at most that many in any case. -/
theorem hostRun_steps (odd : OddFetch) (n : Nat) (s : State) :
    ∃ m ≤ n, Steps odd m s (hostRun odd n s).2 ∧ ((hostRun odd n s).1 = .stopped → m = n) := by
  induction n generalizing s with
  | zero =>
    rw [hostRun_zero]
    exact ⟨0, le_rfl, rfl, fun _ => rfl⟩
  | succ n ih =>
    by_cases hr : s.runState = .running
    · obtain ⟨t, ht, hrun⟩ := hostRun_succ_of_running hr odd
      obtain ⟨m, hm, hsteps, hall⟩ := ih t
      rw [hrun]
      exact ⟨m + 1, Nat.succ_le_succ hm, ⟨t, ht, hsteps⟩, fun h => congrArg (· + 1) (hall h)⟩
    · rw [hostRun_of_not_running hr]
      exact ⟨0, Nat.zero_le _, rfl, fun h => absurd ((runEnd_eq_stopped_iff _).1 h) hr⟩

/-- Settles O54: the outcome is the `runEnd` of the last run state, which tells the three apart. -/
theorem runEndIsTheRunState : Obligations.RunEndIsTheRunState := by
  intro odd n s
  obtain ⟨m, hm, hsteps, hall⟩ := hostRun_steps odd n s
  rw [hostRun_end] at hall ⊢
  exact ⟨runEnd_eq_halted_iff _, runEnd_eq_faulted_iff _, runEnd_eq_stopped_iff _, fun h => hall h ▸ hsteps,
    m, hm, hsteps⟩

/-- Settles O55, by induction on the limit under which the run ended. -/
theorem longerLimitKeepsTheEndOfARun : Obligations.LongerLimitKeepsTheEndOfARun := by
  intro odd n k
  induction n with
  | zero =>
    intro s hend
    rw [hostRun_zero] at hend
    have hr : s.runState ≠ .running := fun hr => hend ((runEnd_eq_stopped_iff _).2 hr)
    rw [hostRun_of_not_running hr, hostRun_of_not_running hr]
  | succ n ih =>
    intro s hend
    by_cases hr : s.runState = .running
    · obtain ⟨t, -, hrun⟩ := hostRun_succ_of_running hr odd
      rw [hrun] at hend
      rw [Nat.add_right_comm, hrun, hrun, ih t hend]
    · rw [hostRun_of_not_running hr, hostRun_of_not_running hr]

end Sys2Proof.Machine
end

section
/-! PROOFS. O19: the meaning of a system instruction that writes nothing. -/

namespace Sys2Proof.Machine

/-- Settles O19: `execCls` answers the state it was given, which the loop has already advanced (41 R142). -/
theorem clsChangesNothing : Obligations.ClsChangesNothing := by
  have hword : encode .cls = 0x00E0 := rfl
  have hexec (s : State) : exec .cls s = .next s := rfl
  exact ⟨hword, hexec⟩

end Sys2Proof.Machine
end

section
/-! PROOFS. O20, O21, O22: what RET, JMP and CALL do. Each of RET and CALL has one rule per answer of the call stack. -/

namespace Sys2Proof.Machine

/-! ### Frames from equal fields -/

theorem sameRegs_of_regs_eq {s t : State} (h : t.regs = s.regs) : SameRegs s t := fun r => by
  simp only [readReg, h]

theorem sameMemory_of_mem_eq {s t : State} (h : t.mem = s.mem) : SameMemory s t := fun a => by rw [h]

theorem stackEntry_of_stack_eq {s t : State} (h : t.stack = s.stack) (k : Fin Config.stackDepth) :
    stackEntry k t = stackEntry k s := by
  simp only [stackEntry, h]

/-! ### RET and CALL, by what the call stack answers -/

theorem exec_ret_of_pop {s t : State} {p : PC} (h : pop s = some (p, t)) : exec .ret s = .next (setPc p t) := by
  simp only [exec, execRet, h]

theorem exec_ret_of_empty {s : State} (h : pop s = none) :
    exec .ret s = .next (raiseFault .stackUnderflow (some (encode .ret)) s) := by
  simp only [exec, execRet, h]

theorem exec_call_of_push {nnn : Addr} {s t : State} (h : push s.pc s = some t) :
    exec (.call nnn) s = .next (setPc (targetOperand nnn) t) := by
  simp only [exec, execCall, h]

theorem exec_call_of_full {nnn : Addr} {s : State} (h : push s.pc s = none) :
    exec (.call nnn) s = .next (raiseFault .stackOverflow (some (encode (.call nnn))) s) := by
  simp only [exec, execCall, h]

/-! ### The call stack's answers -/

/-- `push` fails on a full stack and on no other (10 R43). -/
theorem push_eq_none_iff (v : PC) (s : State) : push v s = none ↔ s.sp.val = Config.stackDepth := by
  rcases push_cases v s with ⟨hfull, hnone⟩ | ⟨hlt, t, hsome, -⟩
  · exact iff_of_true hnone hfull
  · exact iff_of_false (by simp [hsome]) hlt.ne

/-- `pop` fails on an empty stack and on no other (10 R44). -/
theorem pop_eq_none_iff (s : State) : pop s = none ↔ s.sp.val = 0 := by
  rcases pop_cases s with ⟨hempty, hnone⟩ | ⟨_, t, hpos, hsome, -⟩
  · exact iff_of_true hnone hempty
  · exact iff_of_false (by simp [hsome]) hpos.ne'

theorem push_raises_sp {v : PC} {s t : State} (h : push v s = some t) : t.sp.val = s.sp.val + 1 := by
  rcases push_cases v s with ⟨-, hnone⟩ | ⟨_, u, hsome, hsp, -⟩
  · simp [hnone] at h
  · obtain rfl : u = t := by simpa [hsome] using h
    exact hsp

/-- The call stack does not look at the pc (10 R44). -/
theorem pop_setPc {p : PC} {s t : State} (h : pop s = some (p, t)) (q : PC) :
    pop (setPc q s) = some (p, setPc q t) := by
  by_cases hsp : s.sp.val = 0
  · simp [pop, hsp] at h
  · rw [pop, dif_neg hsp] at h
    cases h
    exact dif_neg hsp

/-! ### A step on a fetched instruction -/

/-- A fetched word that encodes an instruction runs it on the advanced state (30 R93, 40 R121). -/
theorem loopStep_of_fetched {odd : OddFetch} {s : State} {i : Instr} (hs : Fetchable odd s)
    (hw : fetchWord s = encode i) : loopStep odd s = exec i (advance s) := by
  rw [loopStep_of_fetchable hs, hw, executeFetched_of_dispatch_some (dispatch_encode i)]

/-! ### The statements -/

/-- Settles O21: `execJmp` writes the pc only. -/
theorem jmpSetsThePcToItsAddress : Obligations.JmpSetsThePcToItsAddress := by
  intro nnn s
  have hword : (encode (.jmp nnn)).toNat = 0x1000 + nnn.toNat := encodeNNN_toNat 1 nnn
  have hexec : exec (.jmp nnn) s = .next (setPc (targetOperand nnn) s) := rfl
  exact ⟨hword, _, hexec, targetOperand_toNat nnn, fun _ => rfl, ⟨rfl, fun _ => rfl⟩, fun _ => rfl, rfl⟩

/-- Settles O20: the two clauses are the two cases of `pop`. -/
theorem retPopsOrUnderflows : Obligations.RetPopsOrUnderflows := by
  refine ⟨rfl, fun s k hk => ?_, fun s hempty => ?_⟩
  · obtain ⟨hlt, t, -, hpop, hsp, hstack, hregs, -, hmem, hrun⟩ :=
      (pop_cases s).resolve_left fun ⟨hempty, _⟩ => by omega
    obtain rfl : (⟨s.sp.val - 1, hlt⟩ : Fin Config.stackDepth) = k := Fin.ext (by simp [hk])
    exact ⟨_, exec_ret_of_pop hpop, rfl, hsp, stackEntry_of_stack_eq hstack, sameRegs_of_regs_eq hregs,
      sameMemory_of_mem_eq hmem, hrun⟩
  · have hpop : pop s = none := (pop_eq_none_iff s).2 hempty
    exact ⟨_, exec_ret_of_empty hpop, rfl, rfl, fun _ => rfl, ⟨rfl, fun _ => rfl⟩, fun _ => rfl⟩

/-- Settles O22: the two clauses are the two cases of `push`. -/
theorem callPushesOrOverflows : Obligations.CallPushesOrOverflows := by
  intro nnn s
  have hword : (encode (.call nnn)).toNat = 0x2000 + nnn.toNat := encodeNNN_toNat 2 nnn
  refine ⟨hword, fun hroom => ?_, fun hfull => ?_⟩
  · obtain ⟨_, t, hpush, hsp, hentry, hregs, -, hmem, hrun⟩ :=
      (push_cases s.pc s).resolve_left fun ⟨hfull, _⟩ => hroom.ne hfull
    refine ⟨_, exec_call_of_push hpush, targetOperand_toNat nnn, hsp, fun k => ?_, sameRegs_of_regs_eq hregs,
      sameMemory_of_mem_eq hmem, hrun⟩
    rw [stackEntry_setPc, hentry]
    simp only [Fin.ext_iff]
  · have hpush : push s.pc s = none := (push_eq_none_iff s.pc s).2 hfull
    exact ⟨_, exec_call_of_full hpush, rfl, rfl, fun _ => rfl, ⟨rfl, fun _ => rfl⟩, fun _ => rfl⟩

end Sys2Proof.Machine
end

section
/-! PROOFS. O47: every step keeps the invariant. A step writes no memory, so what can break it is the call stack, which
only CALL writes, and the run state, which only HALT and a fault write. Each of these has a rule, and `exec_cases` says
that there is nothing else. -/

namespace Sys2Proof.Machine

/-! ### The state operations keep the invariant -/

/-- The invariant looks at the pc of a stopped machine only, and never at the registers; entries may die. -/
theorem State.Inv.of_running {s t : State} (h : s.Inv) (hmem : t.mem = s.mem) (hstack : t.stack = s.stack)
    (hsp : t.sp.val ≤ s.sp.val) (hrun : t.runState = .running) : t.Inv where
  mem := hmem ▸ h.mem
  entries k := by
    rw [stackEntry_of_stack_eq hstack]
    exact h.entries k
  live k hk := by
    rw [hmem, stackEntry_of_stack_eq hstack]
    exact h.live k (hk.trans_le hsp)
  halted hh := by simp [hrun] at hh
  faulted r hr := by simp [hrun] at hr

theorem State.Inv.haltRun {s : State} (h : s.Inv) (hpc : IsAdvanced s.pc)
    (hword : wordAt s.mem (s.pc.toNat - 2) = 0x0000) : (haltRun s).Inv where
  mem := h.mem
  entries := h.entries
  live := h.live
  halted _ := ⟨hpc, hword⟩
  faulted r hr := by simp at hr

theorem State.Inv.raiseFault {s : State} (h : s.Inv) {k : FaultKind} {o : Option Word}
    (hfits : RecordFits s { kind := k, pc := s.pc, opcode := o }) : (raiseFault k o s).Inv where
  mem := h.mem
  entries := h.entries
  live := h.live
  halted hh := by simp at hh
  faulted r hr := by
    obtain rfl := RunState.faulted.inj hr
    exact hfits

/-- The one write to the call stack puts a return address there (10 R43, 42 R153). -/
theorem State.Inv.push {s t : State} {v : PC} (h : s.Inv) (hrun : s.runState = .running)
    (hv : IsReturnAddress s.mem v) (hpush : push v s = some t) : t.Inv := by
  rcases push_cases v s with ⟨-, hnone⟩ | ⟨hlt, u, hsome, hsp, hentry, -, -, hmem, hrunu⟩
  · simp [hnone] at hpush
  obtain rfl : u = t := by simpa [hsome] using hpush
  refine ⟨hmem ▸ h.mem, fun k => ?_, fun k hk => ?_, fun hh => ?_, fun r hr => ?_⟩
  · obtain ⟨-, hle, heven, -⟩ := hv
    rw [hentry]
    split_ifs
    · exact ⟨hle, heven⟩
    · exact h.entries k
  · rw [hmem, hentry]
    split_ifs with htop
    · exact hv
    · have hne : k.val ≠ s.sp.val := fun e => htop (Fin.ext e)
      exact h.live k (by omega)
  · simp [hrunu, hrun] at hh
  · simp [hrunu, hrun] at hr

theorem State.Inv.pop {s t : State} {p : PC} (h : s.Inv) (hrun : s.runState = .running)
    (hpop : pop s = some (p, t)) : t.Inv := by
  rcases pop_cases s with ⟨-, hnone⟩ | ⟨_, u, -, hsome, hsp, hstack, -, -, hmem, hrunu⟩
  · simp [hnone] at hpop
  obtain ⟨-, rfl⟩ : _ ∧ u = t := by simpa [hsome] using hpop
  exact h.of_running hmem hstack (by omega) (hrunu.trans hrun)

/-! ### After the fetch and the advance -/

/-- A running machine that has just fetched the word `w` and advanced past it (40 R124, R125). -/
structure HasFetched (w : Word) (s : State) : Prop where
  running : s.runState = .running
  advanced : IsAdvanced s.pc
  word : wordAt s.mem (s.pc.toNat - 2) = w

theorem hasFetched_advance {s : State} (h : Fetchable .fault s) : HasFetched (fetchWord s) (advance s) := by
  obtain ⟨hrun, hpc, heven⟩ := h
  have hadv := advance_pc_toNat hpc
  refine ⟨hrun, ?_, ?_⟩
  · have := heven rfl
    unfold IsAdvanced
    omega
  · rw [hadv, Nat.add_sub_cancel, advance_mem, fetchWord]

/-- What a CALL pushes is a return address (42 R153). -/
theorem HasFetched.isReturnAddress {nnn : Addr} {s : State} (h : HasFetched (encode (.call nnn)) s) :
    IsReturnAddress s.mem s.pc := by
  obtain ⟨hlow, hhigh, heven⟩ := h.advanced
  refine ⟨hlow, hhigh, heven, ?_⟩
  rw [h.word]
  exact encode_class (.call nnn)

theorem HasFetched.stackOverflow_fits {nnn : Addr} {s : State} (h : HasFetched (encode (.call nnn)) s)
    (hfull : s.sp.val = 16) :
    RecordFits s { kind := .stackOverflow, pc := s.pc, opcode := some (encode (.call nnn)) } := by
  refine ⟨rfl, h.advanced, hfull, by rw [h.word], ?_⟩
  rw [h.word]
  exact encode_class (.call nnn)

theorem HasFetched.stackUnderflow_fits {s : State} (h : HasFetched (encode .ret) s) (hempty : s.sp.val = 0) :
    RecordFits s { kind := .stackUnderflow, pc := s.pc, opcode := some (encode .ret) } :=
  ⟨rfl, h.advanced, hempty, rfl, h.word⟩

theorem HasFetched.unhandledOpcode_fits {w : Word} {s : State} (h : HasFetched w s) (hd : dispatch w = none) :
    RecordFits s { kind := .unhandledOpcode, pc := s.pc, opcode := some w } := by
  refine ⟨rfl, h.advanced, by rw [h.word], ?_⟩
  rwa [h.word]

theorem fetchGuard_fits {s : State} {k : FaultKind} (hg : fetchGuard .fault s.pc = some k) :
    RecordFits s { kind := k, pc := s.pc, opcode := none } := by
  rcases fetchGuard_cases .fault s.pc with ⟨hpc, hk⟩ | ⟨hpc, -, hodd, hk⟩ | ⟨-, -, hk⟩
  · obtain rfl : FaultKind.pcOutOfRange = k := Option.some.inj (hk.symm.trans hg)
    exact ⟨rfl, hpc, rfl⟩
  · obtain rfl : FaultKind.pcMisaligned = k := Option.some.inj (hk.symm.trans hg)
    exact ⟨rfl, hpc, hodd, rfl⟩
  · simp [hk] at hg

/-! ### Instructions and steps keep the invariant -/

theorem exec_keeps_inv {i : Instr} {s : State} (h : s.Inv) (hf : HasFetched (encode i) s) :
    ∃ t, exec i s = .next t ∧ t.Inv := by
  have hrun := hf.running
  rcases exec_cases i s with ⟨rfl, he⟩ | ⟨-, he⟩ | ⟨x, v, he⟩ | ⟨x, y, v, c, -, he⟩ | ⟨c, -, he⟩ | ⟨nnn, -, he⟩ |
    ⟨nnn, t, rfl, hpush, he⟩ | ⟨nnn, rfl, hpush, he⟩ | ⟨p, t, -, hpop, he⟩ | ⟨rfl, hpop, he⟩
  · exact ⟨_, he, h.haltRun hf.advanced hf.word⟩
  · exact ⟨_, he, h⟩
  · exact ⟨_, he, h.of_running rfl rfl le_rfl hrun⟩
  · exact ⟨_, he, h.of_running rfl rfl le_rfl hrun⟩
  · rw [skipIf_eq] at he
    exact ⟨_, he, h.of_running rfl rfl le_rfl hrun⟩
  · exact ⟨_, he, h.of_running rfl rfl le_rfl hrun⟩
  · have hrunt : t.runState = .running := (push_keeps_runState hpush).trans hrun
    exact ⟨_, he, (h.push hrun hf.isReturnAddress hpush).of_running rfl rfl le_rfl hrunt⟩
  · exact ⟨_, he, h.raiseFault (hf.stackOverflow_fits ((push_eq_none_iff _ s).1 hpush))⟩
  · have hrunt : t.runState = .running := (pop_keeps_runState hpop).trans hrun
    exact ⟨_, he, (h.pop hrun hpop).of_running rfl rfl le_rfl hrunt⟩
  · exact ⟨_, he, h.raiseFault (hf.stackUnderflow_fits ((pop_eq_none_iff s).1 hpop))⟩

theorem executeFetched_keeps_inv {w : Word} {s : State} (h : s.Inv) (hf : HasFetched w s) :
    ∃ t, executeFetched w s = .next t ∧ t.Inv := by
  cases hd : dispatch w with
  | none => exact ⟨_, executeFetched_of_dispatch_none hd s, h.raiseFault (hf.unhandledOpcode_fits hd)⟩
  | some i =>
    rw [executeFetched_of_dispatch_some hd]
    exact exec_keeps_inv h ((encode_of_dispatch hd).symm ▸ hf)

/-- Settles O47: the guard's fault has a record that fits, and otherwise the fetched word runs on the advanced state. -/
theorem everyStepKeepsTheInvariant : Obligations.EveryStepKeepsTheInvariant := by
  intro s t h (hstep : loopStep .fault s = .next t)
  have hrun := running_of_loopStep_next hstep
  cases hg : fetchGuard .fault s.pc with
  | some k =>
    rw [loopStep_of_guard_some hrun hg] at hstep
    cases hstep
    exact h.raiseFault (fetchGuard_fits hg)
  | none =>
    have hfetch : Fetchable .fault s := ⟨hrun, (fetchGuard_none .fault s.pc).1 hg⟩
    have hadv : (advance s).Inv := h.of_running rfl rfl le_rfl hrun
    obtain ⟨u, hu, hinv⟩ := executeFetched_keeps_inv hadv (hasFetched_advance hfetch)
    rw [loopStep_of_fetchable hfetch, hu] at hstep
    cases hstep
    exact hinv

end Sys2Proof.Machine
end

section
/-! PROOFS. O44 and O45: the call stack is a LIFO. Both rest on the pop after a push (O43): O44 by induction on the list
of values, O45 with a step of the loop around each of the two. -/

namespace Sys2Proof.Machine

/-! ### Agreement but in dead entries is transitive -/

theorem AgreeButDead.refl (s : State) : AgreeButDead s s := ⟨rfl, rfl, rfl, rfl, rfl, fun _ _ => rfl⟩

theorem AgreeButDead.trans {s t u : State} (h : AgreeButDead s t) (h' : AgreeButDead t u) : AgreeButDead s u := by
  obtain ⟨hregs, hpc, hsp, hmem, hrun, hlive⟩ := h
  obtain ⟨hregs', hpc', hsp', hmem', hrun', hlive'⟩ := h'
  exact ⟨hregs'.trans hregs, hpc'.trans hpc, hsp'.trans hsp, hmem'.trans hmem, hrun'.trans hrun,
    fun k hk => (hlive' k (hsp ▸ hk)).trans (hlive k hk)⟩

/-! ### Lists of values -/

theorem pushAll_cons_of_push {v : PC} {s t : State} (h : push v s = some t) (vs : List PC) :
    pushAll (v :: vs) s = pushAll vs t := by
  simp only [pushAll, h, Option.bind_some]

/-- One pop more at the end gives one value more at the end. -/
theorem popAll_succ_of_pop {n : Nat} {s t u : State} {vs : List PC} {v : PC} (hall : popAll n s = some (vs, t))
    (hpop : pop t = some (v, u)) : popAll (n + 1) s = some (vs ++ [v], u) := by
  induction n generalizing s vs with
  | zero =>
    obtain ⟨rfl, rfl⟩ : [] = vs ∧ s = t := by simpa [popAll] using hall
    simp [popAll, hpop]
  | succ n ih =>
    rw [popAll] at hall
    obtain ⟨⟨p, s'⟩, hp, hrest⟩ := Option.bind_eq_some_iff.1 hall
    obtain ⟨⟨ws, t'⟩, hws, heq⟩ := Option.map_eq_some_iff.1 hrest
    obtain ⟨rfl, rfl⟩ : p :: ws = vs ∧ t' = t := by simpa using heq
    rw [popAll, hp, Option.bind_some, ih hws]
    rfl

/-- A list that fits is pushed, and as many pops answer it in reverse. -/
theorem popAll_pushAll {vs : List PC} {s : State} (hfits : s.sp.val + vs.length ≤ 16) :
    ∃ t u, pushAll vs s = some t ∧ t.sp.val = s.sp.val + vs.length ∧
      popAll vs.length t = some (vs.reverse, u) ∧ AgreeButDead s u := by
  induction vs generalizing s with
  | nil => exact ⟨s, s, rfl, rfl, rfl, AgreeButDead.refl s⟩
  | cons v vs ih =>
    rw [List.length_cons] at hfits
    obtain ⟨s', u', hpush, hpop, hagree⟩ := popAfterPushAnswersThePushedValue v s (by omega)
    have hsp : s'.sp.val = s.sp.val + 1 := push_raises_sp hpush
    obtain ⟨t, w, hpushAll, hspt, hpopAll, hagree'⟩ := ih (s := s') (by omega)
    obtain ⟨p, q, u, hq, hu, hagree''⟩ := hagree'.pop.resolve_left fun ⟨hnone, _⟩ => by simp [hnone] at hpop
    obtain ⟨rfl, rfl⟩ : p = v ∧ q = u' := by simpa [hpop] using hq.symm
    refine ⟨t, u, (pushAll_cons_of_push hpush vs).trans hpushAll, by rw [List.length_cons]; omega, ?_,
      hagree.trans hagree''⟩
    rw [List.length_cons, List.reverse_cons]
    exact popAll_succ_of_pop hpopAll hu

/-- A list that does not fit fails at the value that meets a full stack. -/
theorem pushAll_eq_none {vs : List PC} {s : State} (hover : 16 < s.sp.val + vs.length) : pushAll vs s = none := by
  induction vs generalizing s with
  | nil =>
    have hsp : s.sp.val < 17 := s.sp.isLt
    rw [List.length_nil] at hover
    omega
  | cons v vs ih =>
    cases hpush : push v s with
    | none => simp only [pushAll, hpush, Option.bind_none]
    | some t =>
      rw [pushAll_cons_of_push hpush]
      have hsp := push_raises_sp hpush
      rw [List.length_cons] at hover
      exact ih (by omega)

/-- Settles O44: the two clauses are the list that fits and the one that does not. -/
theorem callStackIsABoundedLifo : Obligations.CallStackIsABoundedLifo := fun _ _ =>
  ⟨popAll_pushAll, pushAll_eq_none⟩

/-! ### CALL, then RET -/

/-- Settles O45: the CALL's step pushes the advanced pc, and the RET's step pops it from the same stack. -/
theorem callThenRetResumesAfterTheCall : Obligations.CallThenRetResumesAfterTheCall := by
  intro s nnn hs hroom hcall hle heven hret
  obtain ⟨t, u, hpush, hpop, hagree⟩ := popAfterPushAnswersThePushedValue (advance s).pc (advance s) hroom
  obtain ⟨hrun, hpc, -⟩ := id hs
  have hstep : step s = .next (setPc (targetOperand nnn) t) :=
    (loopStep_of_fetched hs hcall).trans (exec_call_of_push hpush)
  have ht : Fetchable .fault (setPc (targetOperand nnn) t) := by
    refine ⟨(push_keeps_runState hpush).trans hrun, ?_, fun _ => ?_⟩ <;> rwa [setPc_pc, targetOperand_toNat]
  have hfetch : fetchWord (setPc (targetOperand nnn) t) = encode .ret := by
    rw [fetchWord, setPc_mem, push_keeps_mem hpush, setPc_pc, targetOperand_toNat]
    exact hret
  have hpop' : pop (advance (setPc (targetOperand nnn) t)) = some ((advance s).pc, setPc (targetOperand nnn + 2) u) :=
    pop_setPc hpop _
  have hstep' : step (setPc (targetOperand nnn) t) = .next (setPc (advance s).pc (setPc (targetOperand nnn + 2) u)) :=
    (loopStep_of_fetched ht hfetch).trans (exec_ret_of_pop hpop')
  have hspt := push_raises_sp hpush
  obtain ⟨hregs, -, hsp, hmem, hrunu, hlive⟩ := hagree
  exact ⟨_, _, hstep, targetOperand_toNat nnn, hspt, hstep', advance_pc_toNat hpc, hsp, hlive,
    sameRegs_of_regs_eq hregs, sameMemory_of_mem_eq hmem, hrunu.trans hrun⟩

end Sys2Proof.Machine
end

section
/-! PROOFS. O46: a JMP to its own address. Its step answers the state it began in, and a run from such a state stays
there. -/

namespace Sys2Proof.Machine

theorem steps_self_of_fixed {odd : OddFetch} {s : State} (h : loopStep odd s = .next s) (n : Nat) : Steps odd n s s := by
  induction n with
  | zero => rfl
  | succ n ih => exact ⟨s, h, ih⟩

theorem eq_of_steps_of_fixed {odd : OddFetch} {s t : State} (h : loopStep odd s = .next s) {n : Nat}
    (hsteps : Steps odd n s t) : t = s := by
  induction n with
  | zero => exact hsteps
  | succ n ih =>
    obtain ⟨u, hu, hrest⟩ := hsteps
    obtain rfl : s = u := by simpa [h] using hu
    exact ih hrest

/-- The jump takes back the advance (42 R151). -/
theorem loopStep_jmp_self {odd : OddFetch} {s : State} {nnn : Addr} (hs : Fetchable odd s)
    (htarget : nnn.toNat = s.pc.toNat) (hword : fetchWord s = encode (.jmp nnn)) : loopStep odd s = .next s := by
  have hpc : targetOperand nnn = s.pc := BitVec.eq_of_toNat_eq ((targetOperand_toNat nnn).trans htarget)
  calc loopStep odd s = exec (.jmp nnn) (advance s) := loopStep_of_fetched hs hword
    _ = .next (setPc (targetOperand nnn) (advance s)) := rfl
    _ = .next s := by rw [hpc]; rfl

/-- Settles O46: every state of the run is the running one it began in. -/
theorem jmpToItselfRunsForEver : Obligations.JmpToItselfRunsForEver := by
  intro odd s nnn hs htarget hword
  have hfixed := loopStep_jmp_self hs htarget hword
  obtain ⟨hrun, -⟩ := hs
  refine ⟨fun n t hsteps r hfault => ?_, steps_self_of_fixed hfixed⟩
  rw [eq_of_steps_of_fixed hfixed hsteps, hrun] at hfault
  cases hfault

end Sys2Proof.Machine
end

section
/-! PROOFS. O23, O24, O25, O26: the skips. Each of the three is `skipIf` under a condition on the registers, so what
`skipIf` does to the pc, and that it writes nothing else, is said once. -/

namespace Sys2Proof.Machine

/-! ### What `skipIf` does -/

/-- A skip taken is exact for every pc that the advance leaves (43 R163; 92 D5). -/
theorem skipIf_pc_of_true {c : Bool} {s : State} (hc : c = true) (hpc : s.pc.toNat ≤ 4096) :
    (skipIf c s).pc.toNat = s.pc.toNat + 2 := by
  rw [skipIf, if_pos hc]
  exact addPc2_exact (by omega)

theorem skipIf_pc_of_not {c : Bool} {s : State} (hc : ¬ c = true) : (skipIf c s).pc = s.pc := by
  rw [skipIf, if_neg hc]

/-- A skip writes the pc only, taken or not (43 R163). -/
theorem skipIf_frame (c : Bool) (s : State) :
    SameRegs s (skipIf c s) ∧ SameStack s (skipIf c s) ∧ SameMemory s (skipIf c s) ∧
      (skipIf c s).runState = s.runState := by
  rw [skipIf_eq]
  exact ⟨fun _ => rfl, ⟨rfl, fun _ => rfl⟩, fun _ => rfl, rfl⟩

/-- A skip does not look at memory (43 R163). -/
theorem skipIf_with_mem (c : Bool) (s : State) (m : Memory) :
    skipIf c { s with mem := m } = { skipIf c s with mem := m } := by
  rw [skipIf_eq, skipIf_eq]
  rfl

/-! ### The three skips -/

theorem exec_seImm (x : RegIdx) (kk : Byte) (s : State) :
    exec (.seImm x kk) s = .next (skipIf (readReg x s == kk) s) := rfl

theorem exec_sneImm (x : RegIdx) (kk : Byte) (s : State) :
    exec (.sneImm x kk) s = .next (skipIf (readReg x s != kk) s) := rfl

theorem exec_seReg (x y : RegIdx) (s : State) :
    exec (.seReg x y) s = .next (skipIf (readReg x s == readReg y s) s) := rfl

/-- The condition of a skip is read from the registers alone (43 R160 to R163). -/
theorem exec_skip {i : Instr}
    (hi : (∃ x kk, i = .seImm x kk) ∨ (∃ x kk, i = .sneImm x kk) ∨ (∃ x y, i = .seReg x y)) :
    ∃ c : Vector Byte Config.nregs → Bool, ∀ s, exec i s = .next (skipIf (c s.regs) s) := by
  rcases hi with ⟨x, kk, rfl⟩ | ⟨x, kk, rfl⟩ | ⟨x, y, rfl⟩
  · exact ⟨fun regs => regs[x.toNat]'(regIdx_lt x) == kk, exec_seImm x kk⟩
  · exact ⟨fun regs => regs[x.toNat]'(regIdx_lt x) != kk, exec_sneImm x kk⟩
  · exact ⟨fun regs => regs[x.toNat]'(regIdx_lt x) == regs[y.toNat]'(regIdx_lt y), exec_seReg x y⟩

/-! ### The statements -/

/-- Settles O23: the condition of `skipIf` is the equality of `x[X]` and `KK`. -/
theorem seImmediateSkipsWhenEqual : Obligations.SeImmediateSkipsWhenEqual := by
  intro x kk s
  have hword : (encode (.seImm x kk)).toNat = 0x3000 + 256 * x.toNat + kk.toNat :=
    (encodeXKK_toNat 3 x kk).trans (by simp [Nat.mul_comm])
  have hcond : (readReg x s == kk) = true ↔ readReg x s = kk := beq_iff_eq
  exact ⟨hword, _, exec_seImm x kk s, fun heq => skipIf_pc_of_true (hcond.2 heq),
    fun hne => skipIf_pc_of_not (hne ∘ hcond.1), skipIf_frame _ s⟩

/-- Settles O24: the condition of `skipIf` is the negated equality. -/
theorem sneImmediateSkipsWhenDifferent : Obligations.SneImmediateSkipsWhenDifferent := by
  intro x kk s
  have hword : (encode (.sneImm x kk)).toNat = 0x4000 + 256 * x.toNat + kk.toNat :=
    (encodeXKK_toNat 4 x kk).trans (by simp [Nat.mul_comm])
  have hcond : (readReg x s != kk) = true ↔ readReg x s ≠ kk := bne_iff_ne
  exact ⟨hword, _, exec_sneImm x kk s, fun hne => skipIf_pc_of_true (hcond.2 hne),
    fun heq => skipIf_pc_of_not fun hc => hcond.1 hc heq, skipIf_frame _ s⟩

/-- Settles O25: the condition of `skipIf` is the equality of the two registers; `N` adds 0 to the word. -/
theorem seRegisterSkipsWhenEqual : Obligations.SeRegisterSkipsWhenEqual := by
  intro x y s
  have hword : (encode (.seReg x y)).toNat = 0x5000 + 256 * x.toNat + 16 * y.toNat :=
    (encodeXYN_toNat 5 x y 0).trans (by simp [Nat.mul_comm])
  have hcond : (readReg x s == readReg y s) = true ↔ readReg x s = readReg y s := beq_iff_eq
  exact ⟨hword, _, exec_seReg x y s, fun heq => skipIf_pc_of_true (hcond.2 heq),
    fun hne => skipIf_pc_of_not (hne ∘ hcond.1), skipIf_frame _ s⟩

/-- Settles O26: the step is the advance and a `skipIf` under a condition on the registers, which another memory with
the same word at the pc leaves as they are. -/
theorem skipsExamineNothingAndWriteOnlyThePc : Obligations.SkipsExamineNothingAndWriteOnlyThePc := by
  intro odd s i hs hdecode hi
  obtain ⟨hrun, hpc, -⟩ := id hs
  obtain ⟨c, hexec⟩ := exec_skip hi
  have hword : fetchWord s = encode i := (encode_of_dispatch ((decodeWord_ok _ _).1 hdecode)).symm
  have hstep : loopStep odd s = .next (skipIf (c s.regs) (advance s)) := (loopStep_of_fetched hs hword).trans (hexec _)
  have hpct : (skipIf (c s.regs) (advance s)).pc.toNat = if c s.regs = true then s.pc.toNat + 4 else s.pc.toNat + 2 :=
    skipIf_pc_toNat (advance_pc_toNat hpc) hpc _
  obtain ⟨hregs, hstack, hmem, hrunt⟩ := skipIf_frame (c s.regs) (advance s)
  refine ⟨_, hstep, ?_, hregs, hstack, hmem, hrunt.trans hrun, fun m hm => ?_⟩
  · split_ifs at hpct
    · exact .inr hpct
    · exact .inl hpct
  · have hfetch : Fetchable odd { s with mem := m } := hs
    calc loopStep odd { s with mem := m }
        = exec i (advance { s with mem := m }) := loopStep_of_fetched hfetch (hm.trans hword)
      _ = .next (skipIf (c s.regs) (advance { s with mem := m })) := hexec _
      _ = .next { skipIf (c s.regs) (advance s) with mem := m } :=
          congrArg _ (skipIf_with_mem (c s.regs) (advance s) m)

end Sys2Proof.Machine
end

section
/-! PROOFS. O27 and O28: the immediate LD and ADD. Each is one `writeReg`, so that it writes nothing but the registers
is said once. -/

namespace Sys2Proof.Machine

/-- A register write leaves the pc, the call stack, memory and the run state as they are. -/
theorem writeReg_frame (x : RegIdx) (v : Byte) (s : State) :
    (writeReg x v s).pc = s.pc ∧ SameStack s (writeReg x v s) ∧ SameMemory s (writeReg x v s) ∧
      (writeReg x v s).runState = s.runState :=
  ⟨writeReg_pc x v s, ⟨writeReg_sp x v s, fun j => stackEntry_writeReg j x v s⟩,
    sameMemory_of_mem_eq (writeReg_mem x v s), writeReg_runState x v s⟩

theorem exec_ldImm (x : RegIdx) (kk : Byte) (s : State) : exec (.ldImm x kk) s = .next (writeReg x kk s) := rfl

theorem exec_addImm (x : RegIdx) (kk : Byte) (s : State) :
    exec (.addImm x kk) s = .next (writeReg x (sumByte (readReg x s) kk) s) := rfl

/-- Settles O27: the write's value is `KK`, whatever the register held. -/
theorem ldImmediateWritesTheImmediate : Obligations.LdImmediateWritesTheImmediate := by
  intro x kk s
  have hword : (encode (.ldImm x kk)).toNat = 0x6000 + 256 * x.toNat + kk.toNat :=
    (encodeXKK_toNat 6 x kk).trans (by simp [Nat.mul_comm])
  exact ⟨hword, _, exec_ldImm x kk s, fun r => readReg_writeReg r x kk s, writeReg_frame x kk s⟩

/-- Settles O28: the write's value is the sum's low byte, and there is no second write for the carry (92 D13). -/
theorem addImmediateWrapsWithoutFlag : Obligations.AddImmediateWrapsWithoutFlag := by
  intro x kk s
  have hword : (encode (.addImm x kk)).toNat = 0x7000 + 256 * x.toNat + kk.toNat :=
    (encodeXKK_toNat 7 x kk).trans (by simp [Nat.mul_comm])
  have hsum : (readReg x (writeReg x (sumByte (readReg x s) kk) s)).toNat =
      ((readReg x s).toNat + kk.toNat) % 256 := by
    rw [readReg_writeReg_same, sumByte_toNat]
  exact ⟨hword, _, exec_addImm x kk s, hsum, fun r hr => readReg_writeReg_other r x _ s hr, writeReg_frame x _ s⟩

end Sys2Proof.Machine
end

section
/-! PROOFS. O29, O30, O31: the register-register ALU. LD, OR, AND and XOR are one `writeReg` each; ADD is a `writeReg`
and, after it, the `writeFlag` of the carry, so that what it leaves in `x[15]` is the carry even when `X = 15`. -/

namespace Sys2Proof.Machine

/-! ### The words of class 8 -/

theorem encodeXYN_class8_toNat (x y : RegIdx) (n : Nibble) :
    (encodeXYN 8 x y n).toNat = 0x8000 + n.toNat + 256 * x.toNat + 16 * y.toNat := by
  have hfields : (encodeXYN 8 x y n).toNat = 8 * 4096 + x.toNat * 256 + y.toNat * 16 + n.toNat :=
    encodeXYN_toNat 8 x y n
  omega

/-! ### What each instruction writes -/

theorem exec_ldReg (x y : RegIdx) (s : State) : exec (.ldReg x y) s = .next (writeReg x (readReg y s) s) := rfl

theorem exec_orReg (x y : RegIdx) (s : State) :
    exec (.orReg x y) s = .next (writeReg x (readReg x s ||| readReg y s) s) := rfl

theorem exec_andReg (x y : RegIdx) (s : State) :
    exec (.andReg x y) s = .next (writeReg x (readReg x s &&& readReg y s) s) := rfl

theorem exec_xorReg (x y : RegIdx) (s : State) :
    exec (.xorReg x y) s = .next (writeReg x (readReg x s ^^^ readReg y s) s) := rfl

theorem exec_addReg (x y : RegIdx) (s : State) :
    exec (.addReg x y) s = .next (writeFlag (carryOut (readReg x s) (readReg y s))
      (writeReg x (sumByte (readReg x s) (readReg y s)) s)) := rfl

/-! ### Register writes -/

theorem writeReg_readReg_self (x : RegIdx) (s : State) : writeReg x (readReg x s) s = s := by
  have hregs : s.regs.set x.toNat (readReg x s) (regIdx_lt x) = s.regs := Vector.set_getElem_self (regIdx_lt x)
  rw [writeReg, hregs]

/-- An instruction that is one `writeReg`: the bits of its destination are those of the value, and nothing else
changes, `x[15]` included (92 D13). -/
theorem writes_one_register {i : Instr} {x : RegIdx} {v : Byte} {s : State} {bit : Nat → Bool}
    (hexec : exec i s = .next (writeReg x v s)) (hbit : ∀ n, v.getLsbD n = bit n) :
    ∃ t, exec i s = .next t ∧ (∀ n < 8, (readReg x t).getLsbD n = bit n) ∧
      (∀ r : RegIdx, r ≠ x → readReg r t = readReg r s) ∧
      t.pc = s.pc ∧ SameStack s t ∧ SameMemory s t ∧ t.runState = s.runState := by
  refine ⟨_, hexec, fun n _ => ?_, fun r hr => readReg_writeReg_other r x v s hr, writeReg_frame x v s⟩
  rw [readReg_writeReg_same, hbit]

/-- The flag is written over what the first write left: with `x = 15` it is the flag that stays (45 R185). -/
theorem readReg_writeFlag_writeReg (r x : RegIdx) (c v : Byte) (s : State) :
    readReg r (writeFlag c (writeReg x v s)) = if r = 15 then c else if r = x then v else readReg r s := by
  rw [readReg_writeFlag, readReg_writeReg]

theorem writeFlag_writeReg_frame (x : RegIdx) (c v : Byte) (s : State) :
    (writeFlag c (writeReg x v s)).pc = s.pc ∧ SameStack s (writeFlag c (writeReg x v s)) ∧
      SameMemory s (writeFlag c (writeReg x v s)) ∧ (writeFlag c (writeReg x v s)).runState = s.runState :=
  -- Stack and memory of the state in between are those of `s`, by computation.
  writeReg_frame Config.flagReg c (writeReg x v s)

/-! ### The statements -/

/-- Settles O30: each of the three is one write of a bitwise operation on the operands. -/
theorem logicInstructionsWriteOneRegister : Obligations.LogicInstructionsWriteOneRegister := by
  intro x y s
  exact ⟨encodeXYN_class8_toNat x y 1, encodeXYN_class8_toNat x y 2, encodeXYN_class8_toNat x y 3,
    writes_one_register (exec_orReg x y s) fun _ => BitVec.getLsbD_or,
    writes_one_register (exec_andReg x y s) fun _ => BitVec.getLsbD_and,
    writes_one_register (exec_xorReg x y s) fun _ => BitVec.getLsbD_xor⟩

/-- Settles O31: the sum's low byte and the carry are of the operands before either write; the carry is written last. -/
theorem addRegistersWritesSumThenCarry : Obligations.AddRegistersWritesSumThenCarry := by
  intro x y s
  refine ⟨encodeXYN_class8_toNat x y 4, _, exec_addReg x y s, fun r => ?_, writeFlag_writeReg_frame x _ _ s⟩
  rw [readReg_writeFlag_writeReg, apply_ite BitVec.toNat, apply_ite BitVec.toNat, carryOut_toNat, sumByte_toNat]

/-- Settles O29: the write's value is `x[Y]`, which for `X = Y` is what the register holds. -/
theorem ldRegisterCopies : Obligations.LdRegisterCopies := by
  intro x y s
  have hself : x = y → exec (.ldReg x y) s = .next s := by
    rintro rfl
    rw [exec_ldReg, writeReg_readReg_self]
  exact ⟨encodeXYN_class8_toNat x y 0, hself, _, exec_ldReg x y s, fun r => readReg_writeReg r x _ s,
    writeReg_frame x _ s⟩

end Sys2Proof.Machine
end

section
/-! PROOFS. O6, O9, O4: which words decode, and to what. O6 is the round trip of `encode_of_dispatch`; O9 reads the cases
of `dispatch` class by class; the vectors of O4 follow from the round trip and O9. -/

namespace Sys2Proof

/-! ### Words that decode -/

/-- Settles O6: every field of the word that the instruction keeps is where its format puts it back (30 R93). -/
theorem encodingADecodedWordGivesItBack : Obligations.EncodingADecodedWordGivesItBack := by
  intro w i hdecode
  have hdispatch : dispatch w = some i := (decodeWord_ok w i).1 hdecode
  exact encode_of_dispatch hdispatch

theorem decodeWord_encode (i : Instr) : decodeWord (encode i) = .ok i :=
  (decodeWord_ok _ i).2 (dispatch_encode i)

/-! ### Words that do not decode -/

/-- The unhandled words of class 0 (30 R101; 92 D11). -/
theorem dispatchClass0_eq_none (w : Word) :
    dispatchClass0 w = none ↔ w ≠ 0x0000 ∧ w ≠ 0x00E0 ∧ w ≠ 0x00EE := by
  unfold dispatchClass0
  split_ifs with halt cls ret
  · simp [halt]
  · simp [cls]
  · simp [ret]
  · exact iff_of_true rfl ⟨halt, cls, ret⟩

/-- The words that dispatch to nothing, by class (30 R101 to R106). -/
theorem dispatch_eq_none_iff_class (w : Word) :
    dispatch w = none ↔
      (w.toNat / 4096 = 0 ∧ w ≠ 0x0000 ∧ w ≠ 0x00E0 ∧ w ≠ 0x00EE) ∨
      (w.toNat / 4096 = 5 ∧ w.toNat % 16 ≠ 0) ∨ (w.toNat / 4096 = 8 ∧ 4 < w.toNat % 16) ∨ 9 ≤ w.toNat / 4096 := by
  have handled {i : Instr} {p : Prop} (hp : ¬ p) : (some i = none ↔ p) := iff_of_false (Option.some_ne_none i) hp
  rw [← fields_C_toNat, ← fields_N_toNat]
  simp only [dispatch]
  split
  next hC => simp [hC, dispatchClass0_eq_none]
  next hC => exact handled (by omega)
  next hC => exact handled (by omega)
  next hC => exact handled (by omega)
  next hC => exact handled (by omega)
  next hC => simp [hC, ← BitVec.toNat_inj]
  next hC => exact handled (by omega)
  next hC => exact handled (by omega)
  next hC => simp [hC, dispatchClass8_eq_none]
  next => simp only [imp_false, true_iff] at *; omega

/-- Settles O9: the error of `decodeWord` always holds the literal word, and it answers one where `dispatch` answers
nothing. -/
theorem unhandledWordsByClass : Obligations.UnhandledWordsByClass := by
  intro w
  rw [decodeWord_error, and_iff_left rfl]
  exact dispatch_eq_none_iff_class w

/-- Settles O4: each of the first fifteen words is its instruction's, and each of the last three is unhandled by its
class. -/
theorem decodeTableVectors : Obligations.DecodeTableVectors :=
  ⟨decodeWord_encode .halt, decodeWord_encode .cls, decodeWord_encode .ret,
    decodeWord_encode (.jmp 0xABC), decodeWord_encode (.call 0x100),
    decodeWord_encode (.seImm 10 0x7F), decodeWord_encode (.sneImm 0 0x05),
    decodeWord_encode (.seReg 1 3), decodeWord_encode (.ldImm 15 0xFF),
    decodeWord_encode (.addImm 3 0x05), decodeWord_encode (.ldReg 10 11),
    decodeWord_encode (.orReg 10 11), decodeWord_encode (.andReg 10 11),
    decodeWord_encode (.xorReg 10 11), decodeWord_encode (.addReg 10 11),
    (unhandledWordsByClass 0x00E1).2 (.inl (by decide)),
    (unhandledWordsByClass 0x5131).2 (.inr (.inl (by decide))),
    (unhandledWordsByClass 0x8AB5).2 (.inr (.inr (.inl (by decide))))⟩

end Sys2Proof
end

section
/-! PROOFS. O39: `sp` and the call-stack entries after every step. Only RET and CALL touch the call stack, and what each
does is the answer of `pop` and `push`. -/

namespace Sys2Proof

/-- No other instruction has RET's word (30 R93). -/
theorem encode_toNat_ne_ret {i : Instr} (hi : i ≠ .ret) : (encode i).toNat ≠ 0x00EE := by
  intro hword
  have hencode : encode i = encode .ret := BitVec.eq_of_toNat_eq hword
  have hsome : some i = some .ret := by rw [← dispatch_encode, hencode, dispatch_encode]
  exact hi (Option.some.inj hsome)

end Sys2Proof

namespace Sys2Proof.Machine

/-- `sp` and the entries of `t` are what the rules give for the word `w` fetched at `pc`, on the call stack of `s`. -/
def StackFollowsWord (w : Word) (pc : Nat) (s t : State) : Prop :=
  t.sp.val = spAfterWord w.toNat s.sp.val ∧
    ∀ k, (stackEntry k t).toNat = entryAfterWord w.toNat pc s.sp.val (entryNumber s) k.val

/-- A word that neither pops nor pushes, and a step that keeps the call stack. -/
theorem stackFollowsWord_of_same_stack {w : Word} {s t : State} (hsp : t.sp = s.sp) (hstack : t.stack = s.stack)
    (hpop : ¬ (w.toNat = 0x00EE ∧ 0 < s.sp.val)) (hpush : ¬ (w.toNat / 4096 = 2 ∧ s.sp.val < 16)) (pc : Nat) :
    StackFollowsWord w pc s t := by
  refine ⟨?_, fun k => ?_⟩
  · rw [spAfterWord, if_neg hpop, if_neg hpush, hsp]
  · have hno : ¬ (w.toNat / 4096 = 2 ∧ s.sp.val < 16 ∧ k.val = s.sp.val) := fun ⟨hC, hlt, _⟩ => hpush ⟨hC, hlt⟩
    rw [entryAfterWord, if_neg hno, entryNumber_eq, stackEntry_of_stack_eq hstack]

/-- RET lowers `sp` and leaves the popped entry where it is, dead (10 R44). -/
theorem exec_ret_stackFollowsWord (s : State) (pc : Nat) :
    ∃ t, exec .ret s = .next t ∧ StackFollowsWord (encode .ret) pc s t := by
  rcases pop_cases s with ⟨hempty, hpop⟩ | ⟨_, t, hpos, hpop, hsp, hstack, -⟩
  · exact ⟨_, exec_ret_of_empty hpop,
      stackFollowsWord_of_same_stack rfl rfl (fun c => c.2.ne' hempty) (by simp [encode]) pc⟩
  · refine ⟨_, exec_ret_of_pop hpop, ?_, fun k => ?_⟩
    · rw [spAfterWord, if_pos ⟨rfl, hpos⟩]
      exact hsp
    · rw [entryAfterWord, if_neg (by simp [encode]), entryNumber_eq, stackEntry_setPc, stackEntry_of_stack_eq hstack]

/-- CALL writes the entry at `sp` and raises `sp` (10 R43). -/
theorem exec_call_stackFollowsWord (nnn : Addr) {s : State} {pc : Nat} (hs : s.pc.toNat = pc + 2) :
    ∃ t, exec (.call nnn) s = .next t ∧ StackFollowsWord (encode (.call nnn)) pc s t := by
  have hC : (encode (.call nnn)).toNat / 4096 = 2 := encode_class (.call nnn)
  have hret : (encode (.call nnn)).toNat ≠ 0x00EE := encode_toNat_ne_ret (by simp)
  rcases push_cases s.pc s with ⟨hfull, hpush⟩ | ⟨hlt, t, hpush, hsp, hentry, -⟩
  · exact ⟨_, exec_call_of_full hpush,
      stackFollowsWord_of_same_stack rfl rfl (fun c => hret c.1) (fun c => c.2.ne hfull) pc⟩
  · refine ⟨_, exec_call_of_push hpush, ?_, fun k => ?_⟩
    · rw [spAfterWord, if_neg fun c => hret c.1, if_pos ⟨hC, hlt⟩]
      exact hsp
    · have htop : k = ⟨s.sp.val, hlt⟩ ↔ (encode (.call nnn)).toNat / 4096 = 2 ∧ s.sp.val < 16 ∧ k.val = s.sp.val := by
        simp [Fin.ext_iff, hC, hlt]
      rw [entryAfterWord, entryNumber_eq, stackEntry_setPc, hentry, apply_ite BitVec.toNat, hs]
      simp only [htop]

/-- Every instruction on an advanced state answers a next state whose call stack follows its word (10 R43 to R46). -/
theorem exec_stackFollowsWord (i : Instr) {s : State} {pc : Nat} (hs : s.pc.toNat = pc + 2) :
    ∃ t, exec i s = .next t ∧ StackFollowsWord (encode i) pc s t := by
  have keeps {t : State} (hi : i ≠ .ret) (hC : i.opClass ≠ 2) (ht : exec i s = .next t) (hsp : t.sp = s.sp)
      (hstack : t.stack = s.stack) : ∃ t, exec i s = .next t ∧ StackFollowsWord (encode i) pc s t := by
    rw [← encode_class] at hC
    exact ⟨t, ht, stackFollowsWord_of_same_stack hsp hstack (fun c => encode_toNat_ne_ret hi c.1) (fun c => hC c.1) pc⟩
  have skips {c : Bool} (hi : i ≠ .ret) (hC : i.opClass ≠ 2) (ht : exec i s = .next (skipIf c s)) :
      ∃ t, exec i s = .next t ∧ StackFollowsWord (encode i) pc s t := by
    rw [skipIf_eq] at ht
    exact keeps hi hC ht rfl rfl
  cases i with
  | halt => exact keeps (by simp) (by simp) rfl rfl rfl
  | cls => exact keeps (by simp) (by simp) rfl rfl rfl
  | ret => exact exec_ret_stackFollowsWord s pc
  | jmp nnn => exact keeps (by simp) (by simp) rfl rfl rfl
  | call nnn => exact exec_call_stackFollowsWord nnn hs
  | seImm x kk => exact skips (by simp) (by simp) (exec_seImm x kk s)
  | sneImm x kk => exact skips (by simp) (by simp) (exec_sneImm x kk s)
  | seReg x y => exact skips (by simp) (by simp) (exec_seReg x y s)
  | ldImm x kk => exact keeps (by simp) (by simp) rfl rfl rfl
  | addImm x kk => exact keeps (by simp) (by simp) rfl rfl rfl
  | ldReg x y => exact keeps (by simp) (by simp) rfl rfl rfl
  | orReg x y => exact keeps (by simp) (by simp) rfl rfl rfl
  | andReg x y => exact keeps (by simp) (by simp) rfl rfl rfl
  | xorReg x y => exact keeps (by simp) (by simp) rfl rfl rfl
  | addReg x y => exact keeps (by simp) (by simp) rfl rfl rfl

/-- The same for every word, those included that select no row: these leave the call stack alone (40 R129). -/
theorem executeFetched_stackFollowsWord (w : Word) {s : State} {pc : Nat} (hs : s.pc.toNat = pc + 2) :
    ∃ t, executeFetched w s = .next t ∧ StackFollowsWord w pc s t := by
  cases hd : dispatch w with
  | none =>
    obtain ⟨hret, hC, -⟩ := transfer_of_dispatch_none hd
    exact ⟨_, executeFetched_of_dispatch_none hd s,
      stackFollowsWord_of_same_stack rfl rfl (fun c => hret c.1) (by omega) pc⟩
  | some i =>
    rw [executeFetched_of_dispatch_some hd, ← encode_of_dispatch hd]
    exact exec_stackFollowsWord i hs

/-- Settles O39: the fetched word runs on the advanced state, which has the call stack of `s`. -/
theorem callStackAfterEveryStep : Obligations.CallStackAfterEveryStep := by
  intro odd s hs
  obtain ⟨-, hpc, -⟩ := id hs
  obtain ⟨t, ht, hsp, hentries⟩ := executeFetched_stackFollowsWord (fetchWord s) (advance_pc_toNat hpc)
  exact ⟨t, (loopStep_of_fetchable hs).trans ht, hsp, fun k hk => (entryNumber_eq t ⟨k, hk⟩).trans (hentries ⟨k, hk⟩)⟩

end Sys2Proof.Machine
end

section
/-! PROOFS. O33, O12, O13, O16, O34: faults at the fetch, stopped machines and the status code. Taking a fault writes the
run state only, so the two fetch faults are their guard and that frame. -/

namespace Sys2Proof.Machine

/-! ### Taking a fault -/

/-- A fault leaves everything but the run state as it is (60 R209). -/
theorem raiseFault_frame (k : FaultKind) (o : Option Word) (s : State) :
    (raiseFault k o s).pc = s.pc ∧ SameRegs s (raiseFault k o s) ∧ SameStack s (raiseFault k o s) ∧
      SameMemory s (raiseFault k o s) :=
  ⟨raiseFault_pc k o s, fun r => readReg_raiseFault r k o s,
    ⟨raiseFault_sp k o s, fun j => stackEntry_raiseFault j k o s⟩, sameMemory_of_mem_eq (raiseFault_mem k o s)⟩

/-- Settles O33: the record is made of the arguments and the pc, the rest is the frame. -/
theorem raisingAFaultWritesOnlyTheRunState : Obligations.RaisingAFaultWritesOnlyTheRunState :=
  fun k o s => ⟨raiseFault_runState k o s, raiseFault_frame k o s⟩

/-! ### The fetch guard -/

theorem fetchGuard_of_beyond_memory {pc : PC} (hpc : 4094 < pc.toNat) (odd : OddFetch) :
    fetchGuard odd pc = some .pcOutOfRange := by
  rcases fetchGuard_cases odd pc with ⟨-, hg⟩ | ⟨hle, -⟩ | ⟨hle, -⟩
  · exact hg
  · exact absurd hpc hle.not_gt
  · exact absurd hpc hle.not_gt

theorem fetchGuard_of_odd {pc : PC} (hpc : pc.toNat ≤ 4094) (hodd : pc.toNat % 2 = 1) :
    fetchGuard .fault pc = some .pcMisaligned := by
  rcases fetchGuard_cases .fault pc with ⟨hgt, -⟩ | ⟨-, -, -, hg⟩ | ⟨-, heven, -⟩
  · exact absurd hgt hpc.not_gt
  · exact hg
  · exact absurd (heven rfl) (by omega)

/-- Settles O12: the range check is the guard's first, under either policy and for either parity. -/
theorem fetchBeyondMemoryFaults : Obligations.FetchBeyondMemoryFaults := by
  intro odd s hrun hpc
  have hstep := loopStep_of_guard_some hrun (fetchGuard_of_beyond_memory hpc odd)
  exact ⟨_, hstep, raiseFault_runState .pcOutOfRange none s, raiseFault_frame .pcOutOfRange none s⟩

/-- Settles O13: `step` is the loop under `ODD_FETCH = fault`, whose guard stops at an odd pc; the other policy's guard
has no alignment check. -/
theorem oddFetchFaultsUnderThePolicy : Obligations.OddFetchFaultsUnderThePolicy := by
  refine ⟨fun s hrun hpc hodd => ?_, fun odd pc hpc => ?_⟩
  · have hstep : step s = .next (raiseFault .pcMisaligned none s) :=
      loopStep_of_guard_some hrun (fetchGuard_of_odd hpc hodd)
    exact ⟨_, hstep, raiseFault_runState .pcMisaligned none s, raiseFault_frame .pcMisaligned none s⟩
  · rw [fetchGuard_none, and_iff_right hpc]
    cases odd with
    | fault => simp
    | fetch => simp

/-! ### Stopped machines -/

theorem loopStep_of_halted {s : State} (h : s.runState = .halted) (odd : OddFetch) :
    loopStep odd s = .fault .runHalted := by
  simp only [loopStep, h]

theorem loopStep_of_faulted {s : State} {r : FaultRecord} (h : s.runState = .faulted r) (odd : OddFetch) :
    loopStep odd s = .fault (.runFaulted r) := by
  simp only [loopStep, h]

/-- Settles O16: the loop looks at the run state before anything else. -/
theorem stoppedMachineTakesNoStep : Obligations.StoppedMachineTakesNoStep :=
  ⟨fun odd _ hhalted => loopStep_of_halted hhalted odd, fun odd _ _ hfaulted => loopStep_of_faulted hfaulted odd⟩

/-! ### The status code -/

theorem statusCode_of_faulted {s : State} {r : FaultRecord} (h : s.runState = .faulted r) :
    statusCode s = faultCode r.kind := by
  simp only [statusCode, h]

/-- No fault kind has the code of a machine without a fault (60 R206). -/
theorem faultCode_ne_zero (k : FaultKind) : faultCode k ≠ 0 := by
  cases k <;> simp [faultCode]

/-- Settles O34: the run state decides between 0 and the code of the record's kind, which is never 0. -/
theorem statusCodesOfTheFaultKinds : Obligations.StatusCodesOfTheFaultKinds := by
  refine ⟨fun s => ?_, fun s r hr => ?_⟩
  · cases hr : s.runState with
    | running => simp [statusCode, Safe, hr]
    | halted => simp [statusCode, Safe, hr]
    | faulted r =>
      rw [statusCode_of_faulted hr]
      exact iff_of_false (faultCode_ne_zero r.kind) fun hsafe => hsafe r hr
  · rw [statusCode_of_faulted hr]
    cases r.kind <;> rfl

end Sys2Proof.Machine
end

section
/-! PROOFS. O18 and O32: HALT, and ADD into the flag register. -/

namespace Sys2Proof.Machine

/-- Both bytes of an unwritten word read as 0x00 (20 R73). -/
theorem wordAt_nil (a : Nat) : wordAt [] a = 0x0000 := by
  simp only [wordAt, Memory.read_nil]
  rfl

/-- Settles O18: the word of HALT is the unwritten word, and `haltRun` writes the run state only. -/
theorem haltStopsTheRunAndChangesNothingElse : Obligations.HaltStopsTheRunAndChangesNothingElse := by
  have hword : encode .halt = 0x0000 := rfl
  have hunwritten (a : Nat) : wordAt State.reset.mem a = 0x0000 := wordAt_nil a
  have hexec (s : State) : exec .halt s = .next (haltRun s) := rfl
  exact ⟨hword, hunwritten, fun s => ⟨_, hexec s, haltRun_runState s, haltRun_pc s, fun r => readReg_haltRun r s,
    ⟨haltRun_sp s, fun k => stackEntry_haltRun k s⟩, sameMemory_of_mem_eq (haltRun_mem s)⟩⟩

theorem carryOut_eq_one_iff (a b : Byte) : carryOut a b = 1 ↔ a.toNat + b.toNat > 255 := by
  unfold carryOut exactSum
  split_ifs with hcarry <;> simp [hcarry]

theorem carryOut_eq_zero_or_one (a b : Byte) : carryOut a b = 0 ∨ carryOut a b = 1 := by
  unfold carryOut
  split_ifs
  · exact .inr rfl
  · exact .inl rfl

/-- Settles O32: the second write is the one that register 15 keeps, and its value is the carry. -/
theorem addIntoTheFlagRegisterLeavesTheCarry : Obligations.AddIntoTheFlagRegisterLeavesTheCarry := by
  intro y s
  refine ⟨_, exec_addReg 15 y s, ?_, ?_, fun r hr => ?_⟩
  · rw [readReg_writeFlag_writeReg, if_pos rfl]
    exact carryOut_eq_zero_or_one _ _
  · rw [readReg_writeFlag_writeReg, if_pos rfl]
    exact carryOut_eq_one_iff _ _
  · rw [readReg_writeFlag_writeReg, if_neg hr, if_neg hr]

end Sys2Proof.Machine
end

section
/-! PROOFS. O41: a step reads no memory but the two bytes it fetches. No instruction looks at memory at all, so with
another memory each answers the same next state with that memory in it; what is left is the fetched word. -/

namespace Sys2Proof.Machine

/-! ### No operation of an instruction looks at memory -/

theorem push_with_mem {v : PC} {s t : State} (h : push v s = some t) (m : Memory) :
    push v { s with mem := m } = some { t with mem := m } := by
  by_cases hroom : s.sp.val < Config.stackDepth
  · rw [push, dif_pos hroom] at h
    cases h
    exact dif_pos hroom
  · rw [push, dif_neg hroom] at h
    cases h

theorem pop_with_mem {p : PC} {s t : State} (h : pop s = some (p, t)) (m : Memory) :
    pop { s with mem := m } = some (p, { t with mem := m }) := by
  by_cases hempty : s.sp.val = 0
  · rw [pop, dif_pos hempty] at h
    cases h
  · rw [pop, dif_neg hempty] at h
    cases h
    exact dif_neg hempty

theorem exec_ret_with_mem (s : State) (m : Memory) :
    ∃ t, exec .ret s = .next t ∧ exec .ret { s with mem := m } = .next { t with mem := m } := by
  cases hpop : pop s with
  | none =>
    have hpop' : pop { s with mem := m } = none := (pop_eq_none_iff _).2 ((pop_eq_none_iff s).1 hpop)
    exact ⟨_, exec_ret_of_empty hpop, exec_ret_of_empty hpop'⟩
  | some q => exact ⟨_, exec_ret_of_pop hpop, exec_ret_of_pop (pop_with_mem hpop m)⟩

theorem exec_call_with_mem (nnn : Addr) (s : State) (m : Memory) :
    ∃ t, exec (.call nnn) s = .next t ∧ exec (.call nnn) { s with mem := m } = .next { t with mem := m } := by
  cases hpush : push s.pc s with
  | none =>
    have hpush' : push s.pc { s with mem := m } = none := (push_eq_none_iff _ _).2 ((push_eq_none_iff _ s).1 hpush)
    exact ⟨_, exec_call_of_full hpush, exec_call_of_full hpush'⟩
  | some t => exact ⟨_, exec_call_of_push hpush, exec_call_of_push (push_with_mem hpush m)⟩

/-- With another memory an instruction does the same (20 R72). -/
theorem exec_with_mem (i : Instr) (s : State) (m : Memory) :
    ∃ t, exec i s = .next t ∧ exec i { s with mem := m } = .next { t with mem := m } := by
  have skips {c : Bool} (h : exec i s = .next (skipIf c s))
      (h' : exec i { s with mem := m } = .next (skipIf c { s with mem := m })) :
      ∃ t, exec i s = .next t ∧ exec i { s with mem := m } = .next { t with mem := m } :=
    ⟨_, h, h'.trans (congrArg _ (skipIf_with_mem c s m))⟩
  cases i with
  | halt => exact ⟨_, rfl, rfl⟩
  | cls => exact ⟨_, rfl, rfl⟩
  | ret => exact exec_ret_with_mem s m
  | jmp nnn => exact ⟨_, rfl, rfl⟩
  | call nnn => exact exec_call_with_mem nnn s m
  | seImm x kk => exact skips (exec_seImm x kk s) (exec_seImm x kk _)
  | sneImm x kk => exact skips (exec_sneImm x kk s) (exec_sneImm x kk _)
  | seReg x y => exact skips (exec_seReg x y s) (exec_seReg x y _)
  | ldImm x kk => exact ⟨_, rfl, rfl⟩
  | addImm x kk => exact ⟨_, rfl, rfl⟩
  | ldReg x y => exact ⟨_, rfl, rfl⟩
  | orReg x y => exact ⟨_, rfl, rfl⟩
  | andReg x y => exact ⟨_, rfl, rfl⟩
  | xorReg x y => exact ⟨_, rfl, rfl⟩
  | addReg x y => exact ⟨_, rfl, rfl⟩

theorem executeFetched_with_mem (w : Word) (s : State) (m : Memory) :
    ∃ t, executeFetched w s = .next t ∧ executeFetched w { s with mem := m } = .next { t with mem := m } := by
  cases hd : dispatch w with
  | none => exact ⟨_, executeFetched_of_dispatch_none hd s, executeFetched_of_dispatch_none hd _⟩
  | some i =>
    rw [executeFetched_of_dispatch_some hd, executeFetched_of_dispatch_some hd]
    exact exec_with_mem i s m

/-! ### The step -/

/-- A running machine with another memory that holds the same word at the pc takes the same step. -/
theorem loopStep_with_mem_of_running {s : State} {m : Memory} (hrun : s.runState = .running)
    (hword : fetchWord { s with mem := m } = fetchWord s) (odd : OddFetch) :
    ∃ t, loopStep odd s = .next t ∧ loopStep odd { s with mem := m } = .next { t with mem := m } := by
  have hrun' : { s with mem := m }.runState = .running := hrun
  cases hg : fetchGuard odd s.pc with
  | some k => exact ⟨_, loopStep_of_guard_some hrun hg, loopStep_of_guard_some hrun' hg⟩
  | none =>
    rw [loopStep_of_guard_none hrun hg, loopStep_of_guard_none hrun' hg, hword]
    exact executeFetched_with_mem (fetchWord s) (advance s) m

/-- Settles O41: a stopped machine reads nothing, and a running one reads the fetched word. -/
theorem fetchIsTheOnlyMemoryRead : Obligations.FetchIsTheOnlyMemoryRead := by
  intro odd s m hfirst hsecond
  have hword : fetchWord { s with mem := m } = fetchWord s := by
    simp only [fetchWord, wordAt, hfirst, hsecond]
  rcases loopStep_cases odd s with ⟨hr, hstop⟩ | ⟨r, hr, hstop⟩ | ⟨hr, -⟩
  · rw [hstop, loopStep_of_halted (s := { s with mem := m }) hr]
  · rw [hstop, loopStep_of_faulted (s := { s with mem := m }) hr]
  · obtain ⟨t, ht, htm⟩ := loopStep_with_mem_of_running hr hword odd
    rw [htm, ht]

end Sys2Proof.Machine
end

section
/-! PROOFS. O11 and O52: bytes written to memory are read back. Both rest on what `Memory.writeBytes` stores, given the
laws of one write. -/

namespace Sys2Proof.Machine

/-! ### Bytes written to memory -/

/-- Bytes written inside memory are read back, in a canonical memory (70 R236). -/
theorem Memory.read_writeBytes_inside {m : Memory} (hm : Memory.wf m = true) {a : Nat} {bs : List Byte}
    (hfits : a + bs.length ≤ Config.memSize) {n : Nat} (hn : n < bs.length) :
    Memory.read (Memory.writeBytes m a bs) (a + n) = bs[n] := by
  induction bs generalizing m a n with
  | nil => cases hn
  | cons b bs ih =>
    rw [List.length_cons] at hfits hn
    rw [Memory.writeBytes]
    cases n with
    | zero =>
      rw [Memory.read_writeBytes_outside _ _ _ _ (.inl (by omega))]
      exact Memory.read_write_same hm a b
    | succ n =>
      have hm' : Memory.wf (Memory.write m a b) = true := Memory.wf_write hm b (by omega)
      have haddress : a + (n + 1) = a + 1 + n := by omega
      rw [haddress]
      exact ih hm' (by omega) (Nat.lt_of_succ_lt_succ hn)

/-- Settles O52: a load inside memory is `Memory.writeBytes` on the memory, and the loader refuses any other. -/
theorem loadBytesStoresOrIsRefused : Obligations.LoadBytesStoresOrIsRefused := by
  refine fun offset bytes s => ⟨fun hm hfits => ?_, fun hsome hpast => ?_⟩
  · have hwf : LoaderCommand.wf (.loadBytes offset bytes) = true := by simp [LoaderCommand.wf, hfits]
    exact ⟨_, if_pos hwf, fun n hn => Memory.read_writeBytes_inside hm hfits hn,
      Memory.read_writeBytes_outside s.mem offset bytes, fun _ => rfl, ⟨rfl, fun _ => rfl⟩, rfl, rfl,
      Memory.wf_writeBytes hm offset bytes (.inr hfits)⟩
  · have hill : ¬ LoaderCommand.wf (.loadBytes offset bytes) = true := by simp [LoaderCommand.wf, hsome, hpast]
    exact if_neg hill

/-! ### The word placed at the fetch -/

/-- A word is its own 16 bits (30 R90). -/
theorem tableWord_toNat (w : Word) : tableWord 16 w.toNat = w := by
  rw [tableWord, Nat.mod_eq_of_lt w.isLt, BitVec.ofNat_toNat, BitVec.setWidth_eq]

theorem withFetchWord_of_fetchable {odd : OddFetch} {s : State} (hs : Fetchable odd s) (w : Word) :
    s.withFetchWord 16 w.toNat = { s with mem := Memory.writeBytes s.mem s.pc.toNat [hiByte w, loByte w] } := by
  obtain ⟨-, hpc, -⟩ := hs
  have hplace : s.pc.toNat + 1 < Config.memSize := Nat.succ_lt_succ (Nat.lt_succ_of_le hpc)
  rw [State.withFetchWord, tableWord_toNat]
  exact if_pos hplace

/-- The two bytes of a word, written at an address, are the word there (20 R74). -/
theorem wordAt_writeBytes {m : Memory} (hm : Memory.wf m = true) {a : Nat} (ha : a ≤ 4094) (w : Word) :
    wordAt (Memory.writeBytes m a [hiByte w, loByte w]) a = w := by
  have hfits : a + [hiByte w, loByte w].length ≤ Config.memSize := Nat.add_le_add_right ha 2
  have hhi := Memory.read_writeBytes_inside hm hfits (n := 0) (by simp)
  have hlo := Memory.read_writeBytes_inside hm hfits (n := 1) (by simp)
  rw [wordAt, hlo, ← Nat.add_zero a]
  exact (congrArg (wordOfBytes · _) hhi).trans (wordOfBytes_hi_lo w)

/-- Settles O11: the placed word is the one fetched, and the write reaches no other byte. -/
theorem placedInstructionIsTheOneStepped : Obligations.PlacedInstructionIsTheOneStepped := by
  intro s i hs hm
  obtain ⟨-, hpc, -⟩ := id hs
  rw [withFetchWord_of_fetchable hs]
  refine ⟨loopStep_of_fetched hs (wordAt_writeBytes hm hpc (encode i)), rfl, rfl, fun _ => rfl, ⟨rfl, fun _ => rfl⟩,
    fun a ha ha' => Memory.read_writeBytes_outside _ _ _ _ ?_⟩
  simp
  omega

end Sys2Proof.Machine
end

section
/-! PROOFS. O51: how far the pc can get. A fetchable step is bounded by the rules read on numbers, O38 for the pc and O39
for the entries; any other step is a fault at the fetch, which moves nothing. -/

namespace Sys2Proof.Machine

/-- No rule for the pc gives more than 4098 where the call stack holds at most 4096 (42, 43; 40 R125). -/
theorem pcAfterWord_le {w pc sp : Nat} {v e : Nat → Nat} (hpc : pc ≤ 4094) (he : ∀ k, e k ≤ 4096) :
    pcAfterWord w pc sp v e ≤ 4098 := by
  simp only [pcAfterWord]
  split_ifs with ret jump skip
  · exact (he (sp - 1)).trans (by omega)
  · omega
  · omega
  · omega

/-- A pushed pc is the advanced one, at most 4096 (42 R153, 10 R45). -/
theorem entryAfterWord_le {w pc sp : Nat} {e : Nat → Nat} (hpc : pc ≤ 4094) (he : ∀ k, e k ≤ 4096) (k : Nat) :
    entryAfterWord w pc sp e k ≤ 4096 := by
  unfold entryAfterWord
  split_ifs
  · omega
  · exact he k

theorem entryNumber_le {s : State} (h : ∀ k, (stackEntry k s).toNat ≤ 4096) (n : Nat) : entryNumber s n ≤ 4096 := by
  unfold entryNumber
  split_ifs with hn
  · exact h ⟨n, hn⟩
  · exact Nat.zero_le _

/-- The bounds after a step that fetches. -/
theorem fetchable_step_bounds {odd : OddFetch} {s t : State} (hs : Fetchable odd s)
    (hentries : ∀ k, (stackEntry k s).toNat ≤ 4096) (hstep : loopStep odd s = .next t) :
    (∀ k, (stackEntry k t).toNat ≤ 4096) ∧ t.pc.toNat ≤ 4098 := by
  obtain ⟨-, hpc, -⟩ := id hs
  have hnumbers := entryNumber_le hentries
  obtain ⟨u, hu, hupc⟩ := pcAfterEveryStep odd s hs
  obtain rfl : u = t := by simpa [hu] using hstep
  obtain ⟨u', hu', -, hstack⟩ := callStackAfterEveryStep odd s hs
  obtain rfl : u' = u := by simpa [hu'] using hu
  refine ⟨fun k => ?_, hupc ▸ pcAfterWord_le hpc hnumbers⟩
  rw [← entryNumber_eq, hstack k.val k.isLt]
  exact entryAfterWord_le hpc hnumbers k.val

/-- Settles O51: the guard tells the three cases apart. -/
theorem pcStaysAtMost4098 : Obligations.PcStaysAtMost4098 := by
  intro odd s t hentries hstep
  have hrun := running_of_loopStep_next hstep
  rcases fetchGuard_cases odd s.pc with ⟨hpc, hg⟩ | ⟨hpc, -, -, hg⟩ | ⟨hpc, heven, -⟩
  · rw [loopStep_of_guard_some hrun hg] at hstep
    cases hstep
    exact ⟨hentries, .inr ⟨rfl, hpc, rfl⟩⟩
  · rw [loopStep_of_guard_some hrun hg] at hstep
    cases hstep
    exact ⟨hentries, .inl (hpc.trans (by omega))⟩
  · obtain ⟨hentries', hpc'⟩ := fetchable_step_bounds ⟨hrun, hpc, heven⟩ hentries hstep
    exact ⟨hentries', .inl hpc'⟩

end Sys2Proof.Machine
end

section
/-! PROOFS. O1, O53, O48, O49, O50: creation, the loader and the run that follows. The loader cannot break the invariant,
because it leaves the call stack and the run state of the created machine alone (70 R237). -/

namespace Sys2Proof.Machine

/-! ### Creation and the loader's commands -/

/-- Settles O1: the reads of a created machine, field by field; reset is creation at `ENTRY` by definition. -/
theorem creationIsZeroRunningAtEntry : Obligations.CreationIsZeroRunningAtEntry := by
  refine ⟨fun e => ⟨fun r => readReg_created r e, fun a => ?_, congrArg Fin.val (created_sp e),
    fun k => stackEntry_created k e, created_runState e, created_pc e⟩, rfl⟩
  rw [created_mem]
  exact Memory.read_nil a

/-- Writing the pc leaves registers, call stack, memory and the run state as they are. -/
theorem setPc_frame (p : PC) (s : State) :
    SameRegs s (setPc p s) ∧ SameStack s (setPc p s) ∧ SameMemory s (setPc p s) ∧
      (setPc p s).runState = s.runState :=
  ⟨fun r => readReg_setPc r p s, ⟨setPc_sp p s, fun k => stackEntry_setPc k p s⟩,
    sameMemory_of_mem_eq (setPc_mem p s), setPc_runState p s⟩

/-- Settles O53: the two commands are one register write and one write of the pc. -/
theorem loaderSetsRegistersAndEntry : Obligations.LoaderSetsRegistersAndEntry := by
  have hreg (i : RegIdx) (v : Byte) (s : State) : applyCommand (.setReg i v) s = .next (writeReg i v s) := rfl
  have hentry (e : PC) (s : State) : applyCommand (.setEntry e) s = .next (setPc e s) := rfl
  exact ⟨fun i v s => ⟨_, hreg i v s, fun r => readReg_writeReg r i v s, writeReg_frame i v s⟩,
    fun e s => ⟨_, hentry e s, setPc_pc e s, setPc_frame e s⟩⟩

/-! ### Machines before their first step -/

/-- A machine before its first step: what creation gives and the loader keeps (70 R231, R237). -/
structure Unstarted (s : State) : Prop where
  mem : Memory.wf s.mem = true
  running : s.runState = .running
  sp : s.sp.val = 0
  entries : ∀ k, stackEntry k s = 0

theorem unstarted_created (e : PC) : Unstarted (State.created e) where
  mem := created_memory_wf e
  running := created_runState e
  sp := congrArg Fin.val (created_sp e)
  entries k := stackEntry_created k e

/-- With an empty, zeroed call stack the invariant asks nothing of a running machine but a canonical memory. -/
theorem Unstarted.inv {s : State} (h : Unstarted s) : s.Inv where
  mem := h.mem
  entries k := by simp [h.entries k]
  live k hk := by simp [h.sp] at hk
  halted hh := by simp [h.running] at hh
  faulted r hr := by simp [h.running] at hr

/-- A load writes memory only (70 R236). -/
theorem loadBytes_next {offset : Nat} {bytes : List Byte} {s t : State} (h : loadBytes offset bytes s = .next t) :
    t.runState = s.runState ∧ t.sp = s.sp ∧ t.stack = s.stack := by
  unfold loadBytes at h
  split_ifs at h
  cases h
  exact ⟨rfl, rfl, rfl⟩

/-- No command of the loader sets the call stack, `sp` or the run state (70 R237; 92 D21). -/
theorem Unstarted.applyCommand {c : LoaderCommand} {s t : State} (h : Unstarted s)
    (hc : applyCommand c s = .next t) : Unstarted t := by
  cases c with
  | loadBytes offset bytes =>
    obtain ⟨hrun, hsp, hstack⟩ := loadBytes_next hc
    exact ⟨loadBytes_wf h.mem hc, hrun.trans h.running, hsp ▸ h.sp,
      fun k => (stackEntry_of_stack_eq hstack k).trans (h.entries k)⟩
  | setReg i v =>
    cases hc
    exact ⟨h.mem, h.running, h.sp, h.entries⟩
  | setEntry e =>
    cases hc
    exact ⟨h.mem, h.running, h.sp, h.entries⟩

/-- By induction on the loader's commands. -/
theorem Unstarted.applyCommands {cs : List LoaderCommand} {s t : State} (h : Unstarted s)
    (hcs : applyCommands cs s = .next t) : Unstarted t := by
  induction cs generalizing s with
  | nil =>
    cases hcs
    exact h
  | cons c cs ih =>
    rw [Machine.applyCommands] at hcs
    cases hc : Machine.applyCommand c s with
    | next u =>
      rw [hc] at hcs
      exact ih (h.applyCommand hc) hcs
    | fault r => simp [hc] at hcs
    | refused r => simp [hc] at hcs

theorem unstarted_of_launch {cs : List LoaderCommand} {s : State} (h : launch cs = .next s) : Unstarted s :=
  (unstarted_created Config.entry).applyCommands h

/-! ### The invariant from reset to the end of a run -/

/-- Settles O48: reset is a creation. -/
theorem resetMeetsTheInvariant : Obligations.ResetMeetsTheInvariant :=
  (unstarted_created Config.entry).inv

/-- Settles O49: a launched machine is still unstarted. -/
theorem everyLaunchMeetsTheInvariant : Obligations.EveryLaunchMeetsTheInvariant := by
  intro cs s hlaunch
  have hs := unstarted_of_launch hlaunch
  exact ⟨hs.inv, hs.running, hs.sp, hs.entries⟩

/-- A run under any limit keeps the invariant, by induction on the limit. -/
theorem State.Inv.hostRun {s : State} (h : s.Inv) (n : Nat) : (hostRun .fault n s).2.Inv := by
  induction n generalizing s with
  | zero => rwa [hostRun_zero]
  | succ n ih =>
    by_cases hr : s.runState = .running
    · obtain ⟨t, ht, hrun⟩ := hostRun_succ_of_running hr .fault
      rw [hrun]
      exact ih (everyStepKeepsTheInvariant s t h ht)
    · rwa [hostRun_of_not_running hr]

/-- Settles O50: the launch meets the invariant and the run keeps it. -/
theorem everyRunEndsInTheInvariant : Obligations.EveryRunEndsInTheInvariant := by
  intro cs s n hlaunch
  exact (unstarted_of_launch hlaunch).inv.hostRun n

end Sys2Proof.Machine
end
